-- ==== Sys2Proof/Word.lean ====
section
/-! DEFINITION. The machine's word, its register index and the two readings of a word
(00_scope.md R9, R13; 10_state.md R20, R28). -/

namespace Sys2Proof

/-- A Word: an XLEN = 32 bit pattern (R13). -/
abbrev Word := BitVec 32

/-- A register index, 0 … 31 (R20, R28). -/
abbrev Reg := Fin 32

/-- `u(v)`: the unsigned reading, 0 … 2^32 − 1 (R13). -/
abbrev Word.unsigned (v : Word) : Nat := v.toNat

/-- `s(v)`: the two's-complement reading, −2^31 … 2^31 − 1 (R13). -/
abbrev Word.signed (v : Word) : Int := v.toInt

end Sys2Proof
end

