-- ==== Sys2Proof/Config.lean ====
section
/-! DEFINITION. The parameters of the machine (00_scope.md R9). PROGRAM_BASE and N are not here: they are
load-time data and stand in `State.imem`. -/

namespace Sys2Proof.Config

/-- IBYTES: "one instruction width", what the pc advances by at a fetch (R9). -/
abbrev ibytes : Nat := 4

/-- The number of byte addresses: addresses have XLEN = 32 bits (R60). -/
abbrev addressSpace : Nat := 2 ^ 32

/-- The least value of a 12-bit two's-complement immediate (R9 IMMW, R28). -/
abbrev immMin : Int := -2048

/-- The greatest value of a 12-bit two's-complement immediate (R9 IMMW, R28). -/
abbrev immMax : Int := 2047

/-- PROGRAM_BASE of the reset state. DESIGN CHOICE (assumption 2): R9 leaves it OPEN, a model argument; every
statement quantifies over the base that the state holds. -/
def resetProgramBase : Word := 0

end Sys2Proof.Config
end

