-- ==== Sys2Proof/Syntax.lean ====
section
/-! DEFINITION. The closed instruction set: 16 mnemonics, one constructor each (00_scope.md R2, 10_state.md R27,
R28), and the control signals as a record (R29). -/

namespace Sys2Proof

/-- The 16 mnemonics (R2). -/
inductive Mnemonic where
  | add | sub | and | or | xor | nor | slt | jr
  | addi | andi | ori | xori | beq | bne | lw | sw
  deriving DecidableEq, Repr

/-- Every mnemonic, once, in the order of spec/opcode_table.json. -/
def Mnemonic.all : List Mnemonic :=
  [.add, .sub, .and, .or, .xor, .nor, .slt, .jr, .addi, .andi, .ori, .xori, .beq, .bne, .lw, .sw]

/-- The two format classes (R2, R83). -/
inductive Format where
  | rType | iType
  deriving DecidableEq, Repr

/-- An Instruction. R27's six constructors split by mnemonic, so that there is one per row of the opcode table;
each carries only the fields R27 gives it. Immediates and branch displacements are signed integers (R28). -/
inductive Instr where
  | add (rd rs1 rs2 : Reg)
  | sub (rd rs1 rs2 : Reg)
  | and (rd rs1 rs2 : Reg)
  | or (rd rs1 rs2 : Reg)
  | xor (rd rs1 rs2 : Reg)
  | nor (rd rs1 rs2 : Reg)
  | slt (rd rs1 rs2 : Reg)
  | jr (rs1 : Reg)
  | addi (rd rs1 : Reg) (imm : Int)
  | andi (rd rs1 : Reg) (imm : Int)
  | ori (rd rs1 : Reg) (imm : Int)
  | xori (rd rs1 : Reg) (imm : Int)
  | beq (rs1 rs2 : Reg) (off : Int)
  | bne (rs1 rs2 : Reg) (off : Int)
  | lw (rd rs1 : Reg) (imm : Int)
  | sw (rs2 rs1 : Reg) (imm : Int)
  deriving DecidableEq, Repr

/-- `mnemonic(i)` (R28). -/
def Instr.mnemonic : Instr → Mnemonic
  | .add .. => .add
  | .sub .. => .sub
  | .and .. => .and
  | .or .. => .or
  | .xor .. => .xor
  | .nor .. => .nor
  | .slt .. => .slt
  | .jr .. => .jr
  | .addi .. => .addi
  | .andi .. => .andi
  | .ori .. => .ori
  | .xori .. => .xori
  | .beq .. => .beq
  | .bne .. => .bne
  | .lw .. => .lw
  | .sw .. => .sw

/-- `immField(i)`: imm for IA, Lw, Sw; off for IB; none for R3 and Jr (R28). -/
def Instr.immField : Instr → Option Int
  | .add .. | .sub .. | .and .. | .or .. | .xor .. | .nor .. | .slt .. | .jr .. => none
  | .addi _ _ imm | .andi _ _ imm | .ori _ _ imm | .xori _ _ imm => some imm
  | .beq _ _ off | .bne _ _ off => some off
  | .lw _ _ imm | .sw _ _ imm => some imm

/-- The five control signals (R29). -/
structure Signals where
  readsRegisters : Bool
  writesRegister : Bool
  readsMemory    : Bool
  writesMemory   : Bool
  aluOperation   : Bool
  deriving DecidableEq, Repr

end Sys2Proof
end

