-- ==== Sys2Proof/WellFormed.lean ====
section
/-! DEFINITION. Which Instructions the machine can hold (10_state.md R28): register indices are 0 … 31 by their
type, so the one check is the range of the immediate or displacement. -/

namespace Sys2Proof

/-- A value fits a 12-bit two's-complement field: −2048 … 2047 (R28). -/
def immFits (v : Int) : Bool := decide (Config.immMin ≤ v) && decide (v ≤ Config.immMax)

/-- Every Instruction the machine holds is well formed; `encode` refuses the others (R28, R91). -/
def Instr.wf (i : Instr) : Bool :=
  match i.immField with
  | some v => immFits v
  | none => true

end Sys2Proof
end

