-- ==== Sys2Proof/Decode.lean ====
section
/-! DEFINITION. The encoding: fields, ENC_TABLE, the decoder and the encoder (30_encoding.md R80 to R98).
The machine's decoder is R95 written out; the encoder looks its values up in ENC_TABLE (R86). Both also exist for
any other table (`decodeWith`, `encodeWith`), because ENC_TABLE is a configuration (92_eei_decisions.md D4). -/

namespace Sys2Proof

/-! ## Fields of a word (R82) -/

/-- `w[6:0]`. -/
def opcodeField (w : Word) : BitVec 7 := w.extractLsb' 0 7
/-- `w[11:7]`: rd, and rs2 of beq, bne, sw (R84). -/
def rdField (w : Word) : BitVec 5 := w.extractLsb' 7 5
/-- `w[14:12]`. -/
def funct3Field (w : Word) : BitVec 3 := w.extractLsb' 12 3
/-- `w[19:15]`. -/
def rs1Field (w : Word) : BitVec 5 := w.extractLsb' 15 5
/-- `w[24:20]`. -/
def rs2Field (w : Word) : BitVec 5 := w.extractLsb' 20 5
/-- `w[31:25]`. -/
def funct7Field (w : Word) : BitVec 7 := w.extractLsb' 25 7
/-- `w[31:20]`. -/
def immField12 (w : Word) : BitVec 12 := w.extractLsb' 20 12

/-- A 5-bit field read as a register index. -/
def regOfField (f : BitVec 5) : Reg := f.toFin
/-- A register index "zero-extended to 5 bits" (R85). -/
def fieldOfReg (r : Reg) : BitVec 5 := BitVec.ofFin r
/-- The signed integer of a 12-bit field: f if f < 2048, else f − 4096 (R85). -/
def immOfField (f : BitVec 12) : Int := f.toInt
/-- The 12-bit field of a signed integer: v mod 4096 (R85). -/
def fieldOfImm (v : Int) : BitVec 12 := BitVec.ofInt 12 v

/-! ## ENC_TABLE (R86) -/

/-- One row of an encoding table: an R row fixes opcode, funct3 and funct7; an I row opcode and funct3 (R80, R81). -/
inductive EncRow where
  | r (opcode : BitVec 7) (funct3 : BitVec 3) (funct7 : BitVec 7)
  | i (opcode : BitVec 7) (funct3 : BitVec 3)
  deriving DecidableEq, Repr

/-- An encoding table; `none` is a row "declared but left empty" (R91). -/
abbrev EncTable := Mnemonic → Option EncRow

/-- The format class of each mnemonic (R2). -/
def Mnemonic.format : Mnemonic → Format
  | .add | .sub | .and | .or | .xor | .nor | .slt | .jr => .rType
  | .addi | .andi | .ori | .xori | .beq | .bne | .lw | .sw => .iType

def EncRow.format : EncRow → Format
  | .r .. => .rType
  | .i .. => .iType

def EncRow.opcode : EncRow → BitVec 7
  | .r op _ _ => op
  | .i op _ => op

/-- The table of R86, all 16 rows present (R87 P4). -/
def encTable : EncTable
  | .add  => some (.r 0b0110011 0b000 0b0000000)
  | .sub  => some (.r 0b0110011 0b000 0b0100000)
  | .slt  => some (.r 0b0110011 0b010 0b0000000)
  | .xor  => some (.r 0b0110011 0b100 0b0000000)
  | .or   => some (.r 0b0110011 0b110 0b0000000)
  | .and  => some (.r 0b0110011 0b111 0b0000000)
  | .nor  => some (.r 0b0110011 0b110 0b1111111)
  | .jr   => some (.r 0b0110011 0b000 0b1111111)
  | .addi => some (.i 0b0010011 0b000)
  | .xori => some (.i 0b0010011 0b100)
  | .ori  => some (.i 0b0010011 0b110)
  | .andi => some (.i 0b0010011 0b111)
  | .beq  => some (.i 0b1100011 0b000)
  | .bne  => some (.i 0b1100011 0b001)
  | .lw   => some (.i 0b0000011 0b010)
  | .sw   => some (.i 0b0100011 0b010)

/-- The `match` column of R86 and of spec/opcode_table.json. -/
def Mnemonic.matchWord : Mnemonic → Word
  | .add  => 0x00000033
  | .sub  => 0x40000033
  | .slt  => 0x00002033
  | .xor  => 0x00004033
  | .or   => 0x00006033
  | .and  => 0x00007033
  | .nor  => 0xFE006033
  | .jr   => 0xFE000033
  | .addi => 0x00000013
  | .xori => 0x00004013
  | .ori  => 0x00006013
  | .andi => 0x00007013
  | .beq  => 0x00000063
  | .bne  => 0x00001063
  | .lw   => 0x00002003
  | .sw   => 0x00002023

/-- The `mask` column of R86 and of spec/opcode_table.json. -/
def Mnemonic.maskWord (m : Mnemonic) : Word :=
  match m.format with
  | .rType => 0xFE00707F
  | .iType => 0x0000707F

/-- Two rows that R87 does not let stand side by side: R rows of one (funct7, funct3) pair, whatever their opcodes
(P2), I rows of one (opcode, funct3) pair (P3), an R row and an I row of one opcode (P1). -/
def EncRow.clash : EncRow → EncRow → Bool
  | .r _ f3 f7, .r _ f3' f7' => f7 == f7' && f3 == f3'
  | .i op f3, .i op' f3' => op == op' && f3 == f3'
  | .r op _ _, .i op' _ => op == op'
  | .i op _, .r op' _ _ => op == op'

/-- The properties P1 to P4 of R87 that any replacement table must keep: every mnemonic has a row of its own
format class (P4), and no two rows clash: an R row and an I row never share an opcode (P1), the R rows have pairwise
distinct (funct7, funct3) pairs (P2), the I rows pairwise distinct (opcode, funct3) pairs (P3). -/
def EncTable.Good (t : EncTable) : Prop :=
  (∀ m, ∃ row, t m = some row ∧ row.format = m.format) ∧
  (∀ m m' row row', t m = some row → t m' = some row' → m ≠ m' → row.clash row' = false)

/-! ## Decoder (R95, R96) -/

/-- What decode reports: "bit pattern matches no opcode/funct entry" (R96, R220), with the word. -/
inductive DecodingError where
  | noEntry (w : Word)
  deriving DecidableEq, Repr

/-- The mnemonic of a word, by R95: the opcode chooses the layout; (funct7, funct3) or funct3 selects within it. -/
def mnemonicOf (w : Word) : Option Mnemonic :=
  if opcodeField w = 0b0110011 then
    match funct7Field w, funct3Field w with
    | 0b0000000, 0b000 => some .add
    | 0b0100000, 0b000 => some .sub
    | 0b0000000, 0b010 => some .slt
    | 0b0000000, 0b100 => some .xor
    | 0b0000000, 0b110 => some .or
    | 0b0000000, 0b111 => some .and
    | 0b1111111, 0b110 => some .nor
    | 0b1111111, 0b000 => some .jr
    | _, _ => none
  else if opcodeField w = 0b0010011 then
    match funct3Field w with
    | 0b000 => some .addi
    | 0b100 => some .xori
    | 0b110 => some .ori
    | 0b111 => some .andi
    | _ => none
  else if opcodeField w = 0b1100011 then
    match funct3Field w with
    | 0b000 => some .beq
    | 0b001 => some .bne
    | _ => none
  else if opcodeField w = 0b0000011 then
    match funct3Field w with
    | 0b010 => some .lw
    | _ => none
  else if opcodeField w = 0b0100011 then
    match funct3Field w with
    | 0b010 => some .sw
    | _ => none
  else none

/-- The Instruction that a word of mnemonic `m` stands for, its fields taken as R84 places them (R95). -/
def instrOfFields (m : Mnemonic) (w : Word) : Instr :=
  let a := regOfField (rdField w)
  let b := regOfField (rs1Field w)
  let c := regOfField (rs2Field w)
  let imm := immOfField (immField12 w)
  match m with
  | .add => .add a b c
  | .sub => .sub a b c
  | .and => .and a b c
  | .or => .or a b c
  | .xor => .xor a b c
  | .nor => .nor a b c
  | .slt => .slt a b c
  | .jr => .jr b
  | .addi => .addi a b imm
  | .andi => .andi a b imm
  | .ori => .ori a b imm
  | .xori => .xori a b imm
  | .beq => .beq b a imm
  | .bne => .bne b a imm
  | .lw => .lw a b imm
  | .sw => .sw a b imm

/-- `decode`: total on all 2^32 words, pure, with DecodingError where no entry matches (R95, R96). -/
def decode (w : Word) : Except DecodingError Instr :=
  match mnemonicOf w with
  | some m => .ok (instrOfFields m w)
  | none => .error (.noEntry w)

/-- A word is an instance of a row: its layout's key fields equal the row's. -/
def EncRow.instanceOf (row : EncRow) (w : Word) : Bool :=
  match row with
  | .r op f3 f7 => opcodeField w == op && funct3Field w == f3 && funct7Field w == f7
  | .i op f3 => opcodeField w == op && funct3Field w == f3

/-- Whether `m` has a row in `t` of which `w` is an instance. -/
def EncTable.rowMatches (t : EncTable) (m : Mnemonic) (w : Word) : Bool :=
  match t m with
  | some row => row.instanceOf w
  | none => false

/-- decode under a replacement table (R86, R87; D4): the mnemonic is the one whose row the word is an instance of. -/
def decodeWith (t : EncTable) (w : Word) : Except DecodingError Instr :=
  match Mnemonic.all.find? (fun m => t.rowMatches m w) with
  | some m => .ok (instrOfFields m w)
  | none => .error (.noEntry w)

/-! ## Encoder (R90 to R92) -/

/-- Why encode refuses an Instruction (R91). -/
inductive EncodingError where
  | noTableEntry (i : Instr)
  | immediateRange (i : Instr)
  deriving DecidableEq, Repr

/-- The R layout, most significant field first (R80). -/
def rLayout (funct7 : BitVec 7) (rs2 rs1 : BitVec 5) (funct3 : BitVec 3) (rd : BitVec 5) (opcode : BitVec 7) : Word :=
  funct7 ++ rs2 ++ rs1 ++ funct3 ++ rd ++ opcode

/-- The I layout, most significant field first (R81). -/
def iLayout (imm : BitVec 12) (rs1 : BitVec 5) (funct3 : BitVec 3) (rd : BitVec 5) (opcode : BitVec 7) : Word :=
  imm ++ rs1 ++ funct3 ++ rd ++ opcode

/-- What goes in `w[11:7]`: rd; rs2 for beq, bne, sw; zero for jr (R84). -/
def Instr.fieldAt7 : Instr → BitVec 5
  | .add rd _ _ | .sub rd _ _ | .and rd _ _ | .or rd _ _ | .xor rd _ _ | .nor rd _ _ | .slt rd _ _ => fieldOfReg rd
  | .jr _ => 0
  | .addi rd _ _ | .andi rd _ _ | .ori rd _ _ | .xori rd _ _ => fieldOfReg rd
  | .beq _ rs2 _ | .bne _ rs2 _ => fieldOfReg rs2
  | .lw rd _ _ => fieldOfReg rd
  | .sw rs2 _ _ => fieldOfReg rs2

/-- What goes in `w[19:15]`: rs1 for every constructor (R84). -/
def Instr.fieldAt15 : Instr → BitVec 5
  | .add _ rs1 _ | .sub _ rs1 _ | .and _ rs1 _ | .or _ rs1 _ | .xor _ rs1 _ | .nor _ rs1 _ | .slt _ rs1 _ =>
      fieldOfReg rs1
  | .jr rs1 => fieldOfReg rs1
  | .addi _ rs1 _ | .andi _ rs1 _ | .ori _ rs1 _ | .xori _ rs1 _ => fieldOfReg rs1
  | .beq rs1 _ _ | .bne rs1 _ _ => fieldOfReg rs1
  | .lw _ rs1 _ | .sw _ rs1 _ => fieldOfReg rs1

/-- What goes in `w[24:20]` of an R word: rs2, zero for jr (R84). An I word has immediate bits there. -/
def Instr.fieldAt20 : Instr → BitVec 5
  | .add _ _ rs2 | .sub _ _ rs2 | .and _ _ rs2 | .or _ _ rs2 | .xor _ _ rs2 | .nor _ _ rs2 | .slt _ _ rs2 =>
      fieldOfReg rs2
  | .jr _ | .addi .. | .andi .. | .ori .. | .xori .. | .beq .. | .bne .. | .lw .. | .sw .. => 0

/-- The word of an Instruction in a row's layout (R84, R92). -/
def EncRow.layout (row : EncRow) (i : Instr) : Word :=
  match row with
  | .r op f3 f7 => rLayout f7 i.fieldAt20 i.fieldAt15 f3 i.fieldAt7 op
  | .i op f3 => iLayout (fieldOfImm (i.immField.getD 0)) i.fieldAt15 f3 i.fieldAt7 op

/-- encode under a table: it fails when the mnemonic has no row or the immediate does not fit (R90, R91). -/
def encodeWith (t : EncTable) (i : Instr) : Except EncodingError Word :=
  match t i.mnemonic with
  | none => .error (.noTableEntry i)
  | some row => if i.wf then .ok (row.layout i) else .error (.immediateRange i)

/-- `encode` with the table of R86 (R90 to R92). -/
def encode (i : Instr) : Except EncodingError Word := encodeWith encTable i

/-! ## The host's view of a table word -/

/-- The instruction the decoder reads from a word whose bits are `w`. Every instruction is one 32-bit word (R83) and
no byte order is observable (R62), so the word is taken whole; bits above `nbits` are zero. -/
def decodeTableWord (nbits w : Nat) : Option Instr :=
  match decode (BitVec.ofNat 32 (w % 2 ^ nbits)) with
  | .ok i => some i
  | .error _ => none

end Sys2Proof
end

