-- ==== Sys2Proof/Machine/State.lean ====
section
/-! DEFINITION. The state of the machine as plain data (10_state.md): the tuple of that file together with the
load-time configuration PROGRAM_BASE and program, the reasons a step stops, and the reset state (R50). -/

namespace Sys2Proof.Machine

/-- The register file: an ordered array of 32 Words (R20). Index 0 is never written and read as 0 (R21, R22). -/
abbrev RegFile := Vector Word 32

/-- Why the machine stands still. -/
inductive Fault where
  /-- FetchMisaligned(a): the Fetch stage was asked to fetch at `a`, inside the program region and not a multiple of 4
  (R63, R224). Raised by Fetch into `State.fault`; `step` answers it from then on, because no advance is defined in a
  faulted state (R36, R148). Safe: the spec's own stuck outcome. -/
  | fetchMisaligned (a : Word)
  deriving DecidableEq, Repr

/-- Why the model gives a step no meaning. -/
inductive Refusal where
  /-- An instruction whose arm of `exec` has no meaning yet; raised by `exec` only. Safe. -/
  | notModelled (mnemonic : String)
  /-- The word to fetch does not decode. Raised by Fetch, in states no load can produce: load refuses a program that
  holds such a word (R252), so "decoding cannot fail here" (R134). Safe. -/
  | illegalWord (w : Word)
  deriving DecidableEq, Repr

/-- The instruction memory: PROGRAM_BASE and the N loaded words, `words[k]` at byte address base + 4k
(20_memory.md R60: "keeps the memory as an array of Words and defines no byte view", R62). -/
structure Memory where
  base  : Word
  words : List Word
  deriving DecidableEq, Repr

/-- An in-flight record (R31): the decoded Instruction, the pc it was fetched at, and three scratch fields, each
unset (`none`) until the stage that writes it. -/
structure InFlight where
  instr  : Instr
  ipc    : Word
  op1    : Option Word
  op2    : Option Word
  result : Option Word
  deriving DecidableEq, Repr

/-- A pipeline slot: `none` is the one no-op sentinel `Empty` (R30, R32). -/
abbrev Slot := Option InFlight

/-- The state. No field is the model's own: each is named by 10_state.md, `imem` by its header and by R60. -/
structure State where
  regs       : RegFile
  pc         : Word
  F          : Slot
  D          : Slot
  X          : Slot
  M          : Slot
  W          : Slot
  cycleCount : Nat
  fetchCount : Nat
  done       : Bool
  fault      : Option Fault
  imem       : Memory
  deriving DecidableEq, Repr

/-- The five stage names (R32, R42). -/
inductive Stage where
  | F | D | X | M | W
  deriving DecidableEq, Repr

/-- The control request of one advance (R131). It is computed from the old state and never stored (R33). -/
inductive Request where
  | proceed
  | stall
  | branch (target : Word)
  deriving DecidableEq, Repr

/-- What Fetch finds at a pc (R134, R63). -/
inductive Fetched where
  | outside
  | misaligned
  | illegal (w : Word)
  | instr (i : Instr)
  deriving DecidableEq, Repr

/-- The part of the new state that the control request decides: three slots before their stage logic, the pc, the
fetch counter and the fault (R133 to R136). -/
structure FrontEnd where
  F          : Slot
  D          : Slot
  X          : Slot
  pc         : Word
  fetchCount : Nat
  fault      : Option Fault
  deriving DecidableEq, Repr

/-- The reset state over a loaded program: every value of R50's table. -/
def State.atReset (imem : Memory) : State where
  regs := Vector.replicate 32 0
  pc := imem.base
  F := none
  D := none
  X := none
  M := none
  W := none
  cycleCount := 0
  fetchCount := 0
  done := false
  fault := none
  imem := imem

/-- The machine right after reset with no program loaded (N = 0). PROGRAM_BASE is the model's choice (assumption 2);
a program comes from the load of R252 (assumption 3). -/
def State.reset : State := State.atReset ⟨Config.resetProgramBase, []⟩

end Sys2Proof.Machine
end

