-- ==== Sys2Proof/Machine/Ops.lean ====
section
/-! DEFINITION. The named operations: the register file (10_state.md R21, R22), the instruction memory
(20_memory.md R60, R61, R63), the fetch lookup (R134) and the machine's one exception, FetchMisaligned (R224). -/

namespace Sys2Proof.Machine

/-! ## Register file -/

/-- `read(index)`: 0 when index = 0, else the stored value (R21). -/
def RegFile.read (f : RegFile) (r : Reg) : Word := if r = 0 then 0 else f[r]

/-- `write(index, value)`: no-op when index = 0, else replaces the stored value (R22). -/
def RegFile.write (f : RegFile) (r : Reg) (v : Word) : RegFile := if r = 0 then f else f.set r v

/-- `x[i]` in a state (R14). -/
def State.reg (s : State) (r : Reg) : Word := RegFile.read s.regs r

/-- `x[i] <- v` in a state (R14). -/
def State.setReg (s : State) (r : Reg) (v : Word) : State := { s with regs := RegFile.write s.regs r v }

/-- `pc <- t` (R14). -/
def State.setPc (s : State) (t : Word) : State := { s with pc := t }

/-- The address of the next sequential word, modulo 2^32 (R24, R26). -/
def nextPc (pc : Word) : Word := pc + BitVec.ofNat 32 Config.ibytes

/-! ## Instruction memory -/

/-- The first address after the program region, unwrapped: PROGRAM_BASE + 4×N (R26, R61). -/
def Memory.limit (m : Memory) : Nat := m.base.toNat + Config.ibytes * m.words.length

/-- PROGRAM_BASE ≤ a < PROGRAM_BASE + 4×N (R61, R134). -/
def Memory.inRange (m : Memory) (a : Nat) : Bool := decide (m.base.toNat ≤ a) && decide (a < m.limit)

/-- `IMem(a)`: defined only at a = PROGRAM_BASE + 4k with 0 ≤ k < N (R60). Every other address is unmapped. -/
def Memory.read (m : Memory) (a : Nat) : Option Word :=
  if m.base.toNat ≤ a ∧ (a - m.base.toNat) % Config.ibytes = 0 then
    m.words[(a - m.base.toNat) / Config.ibytes]?
  else none

/-- The form every loaded memory has: PROGRAM_BASE a multiple of 4 and PROGRAM_BASE + 4×N ≤ 2^32 (R9), every word a
legal instruction (R252). -/
def Memory.wf (m : Memory) : Bool :=
  decide (m.base.toNat % Config.ibytes = 0) && decide (m.limit ≤ Config.addressSpace)
    && m.words.all (fun w => (mnemonicOf w).isSome)

/-- What Fetch finds at the pc (R134): out of range; in range and not a multiple of 4 (R63); or a word, decoded.
`outside` in the last case would need a PROGRAM_BASE that is no multiple of 4, which `Memory.wf` rules out. -/
def Memory.fetch (m : Memory) (pc : Word) : Fetched :=
  if m.inRange pc.toNat then
    if pc.toNat % Config.ibytes = 0 then
      match m.read pc.toNat with
      | some w =>
        match decode w with
        | .ok i => .instr i
        | .error _ => .illegal w
      | none => .outside
    else .misaligned
  else .outside

/-! ## The one exception -/

/-- FetchMisaligned(pc): what the Fetch stage makes of the front end when it faults (R63, R224). F receives Empty, pc
and fetchCount keep their values, the cause is recorded; nothing is saved and no handler runs (R227). The rest of the
advance completes, and there is no return from it but reset (R228). -/
def takeFetchMisaligned (front : FrontEnd) : FrontEnd :=
  { front with F := none, fault := some (.fetchMisaligned front.pc) }

end Sys2Proof.Machine
end

