-- ==== Sys2Proof/Machine/Operands.lean ====
section
/-! DEFINITION. What an instruction reads and writes: destination, sources, control signals (10_state.md R28, R29) and
the operand forms of Decode/RegisterRead (40_pipeline_engine.md R139). -/

namespace Sys2Proof.Machine

/-- `dest(i)`: rd for R3, IA, Lw; none for Jr, IB, Sw (R28). -/
def dest : Instr → Option Reg
  | .add rd _ _ | .sub rd _ _ | .and rd _ _ | .or rd _ _ | .xor rd _ _ | .nor rd _ _ | .slt rd _ _ => some rd
  | .addi rd _ _ | .andi rd _ _ | .ori rd _ _ | .xori rd _ _ => some rd
  | .lw rd _ _ => some rd
  | .jr _ | .beq .. | .bne .. | .sw .. => none

/-- `sources(i)`: rs1 and rs2 for R3, IB, Sw; rs1 for Jr, IA, Lw (R28). -/
def sources : Instr → List Reg
  | .add _ rs1 rs2 | .sub _ rs1 rs2 | .and _ rs1 rs2 | .or _ rs1 rs2 | .xor _ rs1 rs2 | .nor _ rs1 rs2
  | .slt _ rs1 rs2 => [rs1, rs2]
  | .jr rs1 => [rs1]
  | .addi _ rs1 _ | .andi _ rs1 _ | .ori _ rs1 _ | .xori _ rs1 _ => [rs1]
  | .beq rs1 rs2 _ | .bne rs1 rs2 _ => [rs1, rs2]
  | .lw _ rs1 _ => [rs1]
  | .sw rs2 rs1 _ => [rs1, rs2]

/-- The control signals: a pure function of the mnemonic (R29). -/
def signals : Mnemonic → Signals
  | .add | .sub | .and | .or | .xor | .nor | .slt | .addi | .andi | .ori | .xori =>
      { readsRegisters := true, writesRegister := true, readsMemory := false, writesMemory := false, aluOperation := true }
  | .jr | .beq | .bne =>
      { readsRegisters := true, writesRegister := false, readsMemory := false, writesMemory := false, aluOperation := false }
  | .lw =>
      { readsRegisters := true, writesRegister := false, readsMemory := true, writesMemory := false, aluOperation := false }
  | .sw =>
      { readsRegisters := true, writesRegister := false, readsMemory := false, writesMemory := true, aluOperation := false }

/-- `sext_32(imm)`: the Word of a signed immediate (R13, R85). -/
def immWord (imm : Int) : Word := BitVec.ofInt 32 imm

/-- Operand 1: register rs1, for every constructor (R139). -/
def operand1 (regs : RegFile) : Instr → Word
  | .add _ rs1 _ | .sub _ rs1 _ | .and _ rs1 _ | .or _ rs1 _ | .xor _ rs1 _ | .nor _ rs1 _ | .slt _ rs1 _ =>
      RegFile.read regs rs1
  | .jr rs1 => RegFile.read regs rs1
  | .addi _ rs1 _ | .andi _ rs1 _ | .ori _ rs1 _ | .xori _ rs1 _ => RegFile.read regs rs1
  | .beq rs1 _ _ | .bne rs1 _ _ => RegFile.read regs rs1
  | .lw _ rs1 _ | .sw _ rs1 _ => RegFile.read regs rs1

/-- Operand 2: register rs2 for R3 and IB; the immediate for IA, Lw and Sw; unset for Jr (R139). -/
def operand2 (regs : RegFile) : Instr → Option Word
  | .add _ _ rs2 | .sub _ _ rs2 | .and _ _ rs2 | .or _ _ rs2 | .xor _ _ rs2 | .nor _ _ rs2 | .slt _ _ rs2 =>
      some (RegFile.read regs rs2)
  | .jr _ => none
  | .addi _ _ imm | .andi _ _ imm | .ori _ _ imm | .xori _ _ imm => some (immWord imm)
  | .beq _ rs2 _ | .bne _ rs2 _ => some (RegFile.read regs rs2)
  | .lw _ _ imm | .sw _ _ imm => some (immWord imm)

end Sys2Proof.Machine
end

