-- ==== Sys2Proof/Machine/Flags.lean ====
section
/-! DEFINITION. Conditions. The machine has no flags, condition codes or predicates (10_state.md R37): no instruction
sets or reads one. What other machines keep in flags are here two comparisons of operand values. -/

namespace Sys2Proof.Machine

/-- The condition of beq: equality of the whole Words (R200, R201). -/
def equalCondition (a b : Word) : Bool := a == b

/-- The condition of slt: both operands read as two's-complement integers (R187). -/
def signedLess (a b : Word) : Bool := decide (a.signed < b.signed)

end Sys2Proof.Machine
end

