-- ==== Sys2Proof/Machine/Alu.lean ====
section
/-! DEFINITION. The Execute stage's operations (40_pipeline_engine.md R142; 41_rtype_alu.md R181 to R188;
42_itype_alu.md R191 to R195). All act on 32-bit Words; none traps or sets a flag. -/

namespace Sys2Proof.Machine

/-- a + b modulo 2^32 (R181, R191). -/
def aluAdd (a b : Word) : Word := a + b
/-- a − b modulo 2^32, the first source minus the second (R182). -/
def aluSub (a b : Word) : Word := a - b
/-- Bitwise and (R183, R192). -/
def aluAnd (a b : Word) : Word := a &&& b
/-- Bitwise or (R184, R193). -/
def aluOr (a b : Word) : Word := a ||| b
/-- Bitwise exclusive or (R185, R194). -/
def aluXor (a b : Word) : Word := a ^^^ b
/-- The bitwise complement of the or, over 32 bits (R186). -/
def aluNor (a b : Word) : Word := ~~~(a ||| b)
/-- 1 if the first operand is less than the second as signed integers, else 0 (R187). -/
def aluSlt (a b : Word) : Word := if signedLess a b then 1 else 0

/-- The closed dispatch table of Execute; `none` where the mnemonic has no entry and the result stays unset (R142). -/
def aluResult (m : Mnemonic) (a b : Word) : Option Word :=
  match m with
  | .add | .addi => some (aluAdd a b)
  | .sub => some (aluSub a b)
  | .and | .andi => some (aluAnd a b)
  | .or | .ori => some (aluOr a b)
  | .xor | .xori => some (aluXor a b)
  | .nor => some (aluNor a b)
  | .slt => some (aluSlt a b)
  | .jr | .beq | .bne | .lw | .sw => none

/-- The target of beq and bne: ipc + 4×off modulo 2^32, off a signed count of instructions (R200, R201). -/
def branchTarget (ipc : Word) (off : Int) : Word := ipc + BitVec.ofInt 32 (4 * off)

end Sys2Proof.Machine
end

