-- ==== Sys2Proof/Machine/Stages.lean ====
section
/-! DEFINITION. The logic of each stage on the record it holds (40_pipeline_engine.md R137 to R144), and the two
functions of a record that resolve a control transfer (43_control_transfer.md R200). -/

namespace Sys2Proof.Machine

/-- The record Fetch creates, with all scratch fields unset (R31, R134). -/
def fetchedRecord (i : Instr) (pc : Word) : InFlight := ⟨i, pc, none, none, none⟩

/-- Decode/RegisterRead: both operands, read from the register file as it was before the advance (R139, R141). -/
def decodeLogic (regs : RegFile) (r : InFlight) : InFlight :=
  { r with op1 := some (operand1 regs r.instr), op2 := operand2 regs r.instr }

/-- Execute: the result, where the mnemonic has a table entry (R142). A record whose operands are unset, which no run
puts in X (R51), gets no result (assumption 8). -/
def executeLogic (r : InFlight) : InFlight :=
  match r.op1, r.op2 with
  | some a, some b =>
    match aluResult r.instr.mnemonic a b with
    | some v => { r with result := some v }
    | none => r
  | _, _ => r

/-- MemoryAccess: "pass-through for this subset", lw and sw included (R143). -/
def memoryLogic (r : InFlight) : InFlight := r

/-- What WriteBack writes: the destination and the result of a record whose writesRegister signal is 1 (R144). -/
def writeBackOf (r : InFlight) : Option (Reg × Word) :=
  if (signals r.instr.mnemonic).writesRegister then
    match dest r.instr, r.result with
    | some d, some v => some (d, v)
    | _, _ => none
  else none

/-- WriteBack on the resident of W: the register file after it. A write to register 0 is discarded (R144, R22). -/
def writeBackLogic (regs : RegFile) (w : Slot) : RegFile :=
  match w.bind writeBackOf with
  | some (d, v) => RegFile.write regs d v
  | none => regs

/-- The condition of a branch on a record's operands; false while one is unset (assumption 8). -/
def operandsSatisfy (p : Word → Word → Bool) (r : InFlight) : Bool :=
  match r.op1, r.op2 with
  | some a, some b => p a b
  | _, _ => false

/-- `taken(r)` (R200). -/
def taken (r : InFlight) : Bool :=
  match r.instr with
  | .beq .. => operandsSatisfy equalCondition r
  | .bne .. => operandsSatisfy (fun a b => !equalCondition a b) r
  | .jr _ => true
  | .add .. | .sub .. | .and .. | .or .. | .xor .. | .nor .. | .slt .. => false
  | .addi .. | .andi .. | .ori .. | .xori .. | .lw .. | .sw .. => false

/-- `target(r)` (R200): the branch target, or the register value a jr read, unmodified (R203). -/
def target (r : InFlight) : Option Word :=
  match r.instr with
  | .beq _ _ off => some (branchTarget r.ipc off)
  | .bne _ _ off => some (branchTarget r.ipc off)
  | .jr _ => r.op1
  | .add .. | .sub .. | .and .. | .or .. | .xor .. | .nor .. | .slt .. => none
  | .addi .. | .andi .. | .ori .. | .xori .. | .lw .. | .sw .. => none

/-- Where a record transfers control to, if it does (R131, R200). -/
def transfer (r : InFlight) : Option Word := if taken r then target r else none

end Sys2Proof.Machine
end

