-- ==== Sys2Proof/Machine/Engine.lean ====
section
/-! DEFINITION. The pipeline engine: hazard unit, control request, the three shift cases and the advance, which is one
clock cycle (40_pipeline_engine.md R130 to R136, R145, R146, R148). -/

namespace Sys2Proof.Machine

/-- Whether `p` (in X, M or W) will write a register that `c` (in D) reads (R132). Register 0 is never one. -/
def producesFor (p c : InFlight) : Bool :=
  (signals p.instr.mnemonic).writesRegister &&
    match dest p.instr with
    | some d => decide (d ≠ 0) && decide (d ∈ sources c.instr)
    | none => false

/-- The hazard unit: some record in X, M or W produces for the record in D (R132). -/
def hazard (s : State) : Bool :=
  match s.D with
  | some c => [s.X, s.M, s.W].any (fun slot => slot.any (fun p => producesFor p c))
  | none => false

/-- The control request of a state; a taken transfer in X has priority over a hazard in D (R131). -/
def ctl (s : State) : Request :=
  match s.X.bind transfer with
  | some t => .branch t
  | none => if hazard s then .stall else .proceed

/-- Redirect (R136): F, D and X become Empty, the pc becomes the target, nothing is fetched. -/
def frontRedirect (s : State) (t : Word) : FrontEnd :=
  { F := none, D := none, X := none, pc := t, fetchCount := s.fetchCount, fault := none }

/-- Stall (R135): F and D hold, the bubble goes into X, nothing is fetched. -/
def frontStall (s : State) : FrontEnd :=
  { F := s.F, D := s.D, X := none, pc := s.pc, fetchCount := s.fetchCount, fault := none }

/-- No request, nothing fetched (R133, out of range in R134): D and F move on, F receives Empty. -/
def frontDrain (s : State) : FrontEnd :=
  { F := none, D := s.F, X := s.D, pc := s.pc, fetchCount := s.fetchCount, fault := none }

/-- No request, `i` fetched (R133, R134). -/
def frontFetch (s : State) (i : Instr) : FrontEnd :=
  { F := some (fetchedRecord i s.pc), D := s.F, X := s.D, pc := nextPc s.pc, fetchCount := s.fetchCount + 1,
    fault := none }

/-- Every slot holds the no-op sentinel (R145). -/
def allEmpty (F D X M W : Slot) : Bool := F.isNone && D.isNone && X.isNone && M.isNone && W.isNone

/-- Steps 2 to 4 of an advance around a front end (R130): old X moves to M and old M to W, each new resident meets its
stage's logic, every register read is of the old register file, then done and cycleCount (R145, R146). -/
def complete (s : State) (front : FrontEnd) : State :=
  { regs := writeBackLogic s.regs s.M
    pc := front.pc
    F := front.F
    D := front.D.map (decodeLogic s.regs)
    X := front.X.map executeLogic
    M := s.X.map memoryLogic
    W := s.M
    cycleCount := s.cycleCount + 1
    fetchCount := front.fetchCount
    done := allEmpty front.F front.D front.X s.X s.M
    fault := front.fault
    imem := s.imem }

/-- The front end of an advance, by the control request (R130); the refusal is the fetch of a word that load would
have refused. -/
def frontEnd (s : State) : Except Refusal FrontEnd :=
  match ctl s with
  | .branch t => .ok (frontRedirect s t)
  | .stall => .ok (frontStall s)
  | .proceed =>
    match s.imem.fetch s.pc with
    | .instr i => .ok (frontFetch s i)
    | .outside => .ok (frontDrain s)
    | .misaligned => .ok (takeFetchMisaligned (frontDrain s))
    | .illegal w => .error (.illegalWord w)

/-- One advance = one clock cycle (R130). A state whose fault is set has none: the machine is stuck there (R148). -/
def advance (s : State) : Host.Outcome State Fault Refusal :=
  match s.fault with
  | some f => .fault f
  | none =>
    match frontEnd s with
    | .ok front => .next (complete s front)
    | .error r => .refused r

end Sys2Proof.Machine
end

