-- ==== Sys2Proof/Machine/RType.lean ====
section
/-! DEFINITION. The sequential effect of the R-type arithmetic and logic instructions (41_rtype_alu.md R180 to R187;
40_pipeline_engine.md R150). -/

namespace Sys2Proof.Machine

/-- `x[rd] <- v ; pc <- pc + 4`, the sequential effect shared by the register-writing instructions (R180, R190). -/
def State.retire (s : State) (rd : Reg) (v : Word) : State := (s.setReg rd v).setPc (nextPc s.pc)

/-- `add xd, xs1, xs2` (R181). -/
def execAdd (rd rs1 rs2 : Reg) (s : State) : Host.Outcome State Fault Refusal :=
  .next (s.retire rd (aluAdd (s.reg rs1) (s.reg rs2)))

/-- `sub xd, xs1, xs2` (R182). -/
def execSub (rd rs1 rs2 : Reg) (s : State) : Host.Outcome State Fault Refusal :=
  .next (s.retire rd (aluSub (s.reg rs1) (s.reg rs2)))

/-- `and xd, xs1, xs2` (R183). -/
def execAnd (rd rs1 rs2 : Reg) (s : State) : Host.Outcome State Fault Refusal :=
  .next (s.retire rd (aluAnd (s.reg rs1) (s.reg rs2)))

/-- `or xd, xs1, xs2` (R184). -/
def execOr (rd rs1 rs2 : Reg) (s : State) : Host.Outcome State Fault Refusal :=
  .next (s.retire rd (aluOr (s.reg rs1) (s.reg rs2)))

/-- `xor xd, xs1, xs2` (R185). -/
def execXor (rd rs1 rs2 : Reg) (s : State) : Host.Outcome State Fault Refusal :=
  .next (s.retire rd (aluXor (s.reg rs1) (s.reg rs2)))

/-- `nor xd, xs1, xs2` (R186). -/
def execNor (rd rs1 rs2 : Reg) (s : State) : Host.Outcome State Fault Refusal :=
  .next (s.retire rd (aluNor (s.reg rs1) (s.reg rs2)))

/-- `slt xd, xs1, xs2` (R187). -/
def execSlt (rd rs1 rs2 : Reg) (s : State) : Host.Outcome State Fault Refusal :=
  .next (s.retire rd (aluSlt (s.reg rs1) (s.reg rs2)))

end Sys2Proof.Machine
end

