-- ==== Sys2Proof/Machine/Control.lean ====
section
/-! DEFINITION. The sequential effect of the control transfers (43_control_transfer.md R201 to R203;
40_pipeline_engine.md R150). No link register, no delay slot (R200, R204). -/

namespace Sys2Proof.Machine

/-- `beq xs1, xs2, off`: to pc + 4×off if the registers are equal, else to pc + 4 (R201). -/
def execBeq (rs1 rs2 : Reg) (off : Int) (s : State) : Host.Outcome State Fault Refusal :=
  .next (s.setPc (if equalCondition (s.reg rs1) (s.reg rs2) then branchTarget s.pc off else nextPc s.pc))

/-- `bne xs1, xs2, off`: to pc + 4×off if the registers differ, else to pc + 4 (R202). -/
def execBne (rs1 rs2 : Reg) (off : Int) (s : State) : Host.Outcome State Fault Refusal :=
  .next (s.setPc (if equalCondition (s.reg rs1) (s.reg rs2) then nextPc s.pc else branchTarget s.pc off))

/-- `jr xs1`: to the address in the register, no bit cleared; a bad address is the next fetch's fault (R203, R205). -/
def execJr (rs1 : Reg) (s : State) : Host.Outcome State Fault Refusal :=
  .next (s.setPc (s.reg rs1))

end Sys2Proof.Machine
end

