-- ==== Sys2Proof/Machine/IType.lean ====
section
/-! DEFINITION. The sequential effect of the I-type arithmetic and logic instructions (42_itype_alu.md R190 to R195;
40_pipeline_engine.md R150). The immediate is sign-extended for all four, the logical ones included. -/

namespace Sys2Proof.Machine

/-- `addi xd, xs1, imm` (R191). -/
def execAddi (rd rs1 : Reg) (imm : Int) (s : State) : Host.Outcome State Fault Refusal :=
  .next (s.retire rd (aluAdd (s.reg rs1) (immWord imm)))

/-- `andi xd, xs1, imm` (R192). -/
def execAndi (rd rs1 : Reg) (imm : Int) (s : State) : Host.Outcome State Fault Refusal :=
  .next (s.retire rd (aluAnd (s.reg rs1) (immWord imm)))

/-- `ori xd, xs1, imm` (R193). -/
def execOri (rd rs1 : Reg) (imm : Int) (s : State) : Host.Outcome State Fault Refusal :=
  .next (s.retire rd (aluOr (s.reg rs1) (immWord imm)))

/-- `xori xd, xs1, imm` (R194). -/
def execXori (rd rs1 : Reg) (imm : Int) (s : State) : Host.Outcome State Fault Refusal :=
  .next (s.retire rd (aluXor (s.reg rs1) (immWord imm)))

end Sys2Proof.Machine
end

