-- ==== Sys2Proof/Machine/LoadStore.lean ====
section
/-! DEFINITION. The sequential effect of the load and store placeholders (44_load_store.md R210 to R213): pc + 4 and
nothing else. No address is formed and no memory is read or written. -/

namespace Sys2Proof.Machine

/-- `lw xd, xs1, imm`: no register and no memory changes (R210). -/
def execLw (_rd _rs1 : Reg) (_imm : Int) (s : State) : Host.Outcome State Fault Refusal :=
  .next (s.setPc (nextPc s.pc))

/-- `sw xs2, xs1, imm`: no register and no memory changes (R211). -/
def execSw (_rs2 _rs1 : Reg) (_imm : Int) (s : State) : Host.Outcome State Fault Refusal :=
  .next (s.setPc (nextPc s.pc))

end Sys2Proof.Machine
end

