-- ==== Sys2Proof/Machine/Loader.lean ====
section
/-! DEFINITION. What the host can do besides advancing: load, reset, observe (00_scope.md R11; 10_state.md R42;
70_reset_and_hazards.md R250, R252). -/

namespace Sys2Proof.Machine

/-- Reset: every piece of state at its value of R50; the loaded program stays (R250). -/
def hostReset (s : State) : State := State.atReset s.imem

/-- Why a load is refused, reported to the host (R220, R252). -/
inductive LoadError where
  /-- DecodingError: the first word that does not decode, and its index (R220, R252). -/
  | decodingError (index : Nat) (w : Word)
  /-- PROGRAM_BASE + 4×N exceeds 2^32: outside what R252 lets the host present (assumption 11). -/
  | doesNotFit
  deriving DecidableEq, Repr

/-- The first word of a program that does not decode, with its index counted from `k` (R252). -/
def firstIllegal (k : Nat) : List Word → Option (Nat × Word)
  | [] => none
  | w :: ws =>
    match decode w with
    | .ok _ => firstIllegal (k + 1) ws
    | .error _ => some (k, w)

/-- Load (R252): check every word in order, place the program at PROGRAM_BASE, reset. On an error there is no new
state: the machine stays exactly as it was (R221). -/
def load (ws : List Word) (s : State) : Except LoadError State :=
  if Config.addressSpace < (Memory.mk s.imem.base ws).limit then .error .doesNotFit
  else
    match firstIllegal 0 ws with
    | some (k, w) => .error (.decodingError k w)
    | none => .ok (hostReset { s with imem := ⟨s.imem.base, ws⟩ })

/-- What the host reads of one non-empty slot (R42). -/
structure SlotView where
  stage  : Stage
  record : InFlight
  deriving DecidableEq, Repr

/-- The state the Reporter may read between advances (R42). -/
structure Observation where
  regs       : List Word
  pc         : Word
  slots      : List SlotView
  cycleCount : Nat
  fetchCount : Nat
  done       : Bool
  fault      : Option Fault
  deriving DecidableEq, Repr

/-- Observe: a function of the state; reading changes nothing (R42). -/
def observe (s : State) : Observation where
  regs := (List.finRange 32).map s.reg
  pc := s.pc
  slots := [(Stage.F, s.F), (Stage.D, s.D), (Stage.X, s.X), (Stage.M, s.M), (Stage.W, s.W)].filterMap
    (fun entry => entry.2.map (fun r => ⟨entry.1, r⟩))
  cycleCount := s.cycleCount
  fetchCount := s.fetchCount
  done := s.done
  fault := s.fault

/-- Run-to-completion (R147): at least one advance, then again while done is false and no fault is set. `none` when
the fuel runs out; a fault set by an advance ends the run with that state. -/
def runToCompletion : Nat → State → Option (Host.Outcome State Fault Refusal)
  | 0, _ => none
  | fuel + 1, s =>
    match advance s with
    | .next t => if t.done || t.fault.isSome then some (.next t) else runToCompletion fuel t
    | .fault f => some (.fault f)
    | .refused r => some (.refused r)

/-- `s` with a one-word program at its pc, such that the next advance fetches that word: the load seam of `step`'s
tests (assumptions 3 and 17). The pc is rounded down to a multiple of 4; a pending stall or redirect is cleared by
emptying D and X. -/
def placeWord (s : State) (w : Word) : State :=
  let base := s.pc &&& ~~~(3 : Word)
  let t := { s with pc := base, imem := ⟨base, [w]⟩, fault := none }
  if ctl t = .proceed then t else { t with D := none, X := none }

end Sys2Proof.Machine
end

