-- ==== Sys2Proof/Machine/Sequential.lean ====
section
/-! DEFINITION. The sequential reading of a program (40_pipeline_engine.md R150): one instruction at a time, fetched at
the pc and run by `exec`. It is what the interlocks are for; the machine's own step is the advance (00_scope.md R10). -/

namespace Sys2Proof.Machine

/-- `seqStep` (R150): `none` when the pc is outside the program region (halted); otherwise the fault of a misaligned
pc, the refusal of a word no load accepts, or the instruction's effect. -/
def seqStep (s : State) : Option (Host.Outcome State Fault Refusal) :=
  match s.imem.fetch s.pc with
  | .outside => none
  | .misaligned => some (.fault (.fetchMisaligned s.pc))
  | .illegal w => some (.refused (.illegalWord w))
  | .instr i => some (exec i s)

/-- `n` instructions of the sequential reading; `none` if it stops before that many (R150). -/
def seqRun : Nat → State → Option State
  | 0, s => some s
  | n + 1, s =>
    match seqStep s with
    | some (.next t) => seqRun n t
    | _ => none

/-- The stages' logic applied back to back to one instruction's record, with nothing else in flight: the by-stage
pseudocode of R180, R190, R201 to R203, R210, R211 read without the pipeline. -/
def passThrough (i : Instr) (s : State) : State :=
  let d := decodeLogic s.regs (fetchedRecord i s.pc)
  let x := executeLogic d
  { s with
    regs := writeBackLogic s.regs (some (memoryLogic x))
    pc := (transfer x).getD (nextPc s.pc) }

end Sys2Proof.Machine
end

