-- ==== Sys2Proof/Machine/Step.lean ====
section
/-! DEFINITION. The machine's one step, the advance (00_scope.md R10; 40_pipeline_engine.md R130), and the host's way
of placing one instruction where the next advance fetches it. -/

namespace Sys2Proof.Machine

/-- One step of the one agent: one advance, one clock cycle (R10, R130). -/
def step (s : State) : Host.Outcome State Fault Refusal := advance s

/-- `s` with the instruction of bits `w` stored where the next step fetches (assumptions 3 and 17). -/
def State.withFetchWord (s : State) (nbits w : Nat) : State := placeWord s (BitVec.ofNat 32 (w % 2 ^ nbits))

end Sys2Proof.Machine
end

