-- ==== Sys2Proof/Machine/Assembly.lean ====
section
/-! DEFINITION. The assembly text of the encoder's domain and the binary dump (30_encoding.md R105 to R112;
60_exceptions.md R220 to R222). Text is a list of characters, a file a list of lines. -/

namespace Sys2Proof.Machine

/-- The assemble-time error kinds, each with the value it reports (R220). -/
inductive AsmError where
  /-- Unrecognised mnemonic, wrong operand count or register token; reports the line (R105, R106, R108). -/
  | syntaxError (line : List Char)
  /-- A literal that is not a valid integer; reports the line and the token (R107). -/
  | operandResolution (line token : List Char)
  /-- The encoder's refusal; reports the Instruction (R91). -/
  | encoding (e : EncodingError)
  deriving DecidableEq, Repr

/-- The text of each mnemonic, lower case (R105). -/
def mnemonicText : Mnemonic → List Char
  | .add => ['a', 'd', 'd']
  | .sub => ['s', 'u', 'b']
  | .and => ['a', 'n', 'd']
  | .or => ['o', 'r']
  | .xor => ['x', 'o', 'r']
  | .nor => ['n', 'o', 'r']
  | .slt => ['s', 'l', 't']
  | .jr => ['j', 'r']
  | .addi => ['a', 'd', 'd', 'i']
  | .andi => ['a', 'n', 'd', 'i']
  | .ori => ['o', 'r', 'i']
  | .xori => ['x', 'o', 'r', 'i']
  | .beq => ['b', 'e', 'q']
  | .bne => ['b', 'n', 'e']
  | .lw => ['l', 'w']
  | .sw => ['s', 'w']

/-- "normalize comma separators to whitespace, split on whitespace" (R105). The whitespace characters are the model's
choice (assumption 12). -/
def isSeparator (c : Char) : Bool := c == ',' || c.isWhitespace

/-- The tokens of a line, given the characters of the token being read, newest first (R105). -/
def tokensFrom (current : List Char) : List Char → List (List Char)
  | [] => if current.isEmpty then [] else [current.reverse]
  | c :: cs =>
    if isSeparator c then
      if current.isEmpty then tokensFrom [] cs else current.reverse :: tokensFrom [] cs
    else tokensFrom (c :: current) cs

/-- The tokens of a line (R105). -/
def tokens (line : List Char) : List (List Char) := tokensFrom [] line

/-- The value of a digit in a base up to 16, either case (R107). -/
def digitValue (base : Nat) (c : Char) : Option Nat :=
  let v : Option Nat :=
    if '0' ≤ c ∧ c ≤ '9' then some (c.toNat - '0'.toNat)
    else if 'a' ≤ c ∧ c ≤ 'f' then some (c.toNat - 'a'.toNat + 10)
    else if 'A' ≤ c ∧ c ≤ 'F' then some (c.toNat - 'A'.toNat + 10)
    else none
  v.filter (fun d => decide (d < base))

/-- The value of the digits read so far followed by more; `none` at a character that is no digit (R107). -/
def digitsFrom (base acc : Nat) : List Char → Option Nat
  | [] => some acc
  | c :: cs =>
    match digitValue base c with
    | some d => digitsFrom base (acc * base + d) cs
    | none => none

/-- One or more digits (R107). -/
def digits (base : Nat) (cs : List Char) : Option Nat := if cs.isEmpty then none else digitsFrom base 0 cs

/-- A literal without its sign: decimal by default, hexadecimal after `0x` (R107). -/
def magnitude : List Char → Option Nat
  | '0' :: 'x' :: cs => digits 16 cs
  | cs => digits 10 cs

/-- An integer literal: an optional `-`, then a magnitude (R107). -/
def literal : List Char → Option Int
  | '-' :: cs => (magnitude cs).map (fun n => -(n : Int))
  | cs => (magnitude cs).map (fun n => (n : Int))

/-- A register token: `x` and the decimal number 0 … 31, no sign and no leading zero except for `x0` (R106). -/
def register : List Char → Option Reg
  | ['x', '0'] => some 0
  | 'x' :: '0' :: _ => none
  | 'x' :: cs =>
    match digits 10 cs with
    | some n => if h : n < 32 then some ⟨n, h⟩ else none
    | none => none
  | _ => none

/-- The mnemonic a token spells, letter for letter (R105). -/
def mnemonicOfText (token : List Char) : Option Mnemonic := Mnemonic.all.find? (fun m => mnemonicText m == token)

/-- A register operand, else SyntaxError (R106). -/
def registerOperand (line token : List Char) : Except AsmError Reg :=
  match register token with
  | some r => .ok r
  | none => .error (.syntaxError line)

/-- A literal operand, else OperandResolutionError (R107). -/
def literalOperand (line token : List Char) : Except AsmError Int :=
  match literal token with
  | some v => .ok v
  | none => .error (.operandResolution line token)

/-- `op xd, xs1, xs2` (R108). -/
def operandsRRR (build : Reg → Reg → Reg → Instr) (line : List Char) : List (List Char) → Except AsmError Instr
  | [t1, t2, t3] => do
    let r1 ← registerOperand line t1
    let r2 ← registerOperand line t2
    let r3 ← registerOperand line t3
    return build r1 r2 r3
  | _ => .error (.syntaxError line)

/-- `op xa, xb, literal` (R108). -/
def operandsRRI (build : Reg → Reg → Int → Instr) (line : List Char) : List (List Char) → Except AsmError Instr
  | [t1, t2, t3] => do
    let r1 ← registerOperand line t1
    let r2 ← registerOperand line t2
    let v ← literalOperand line t3
    return build r1 r2 v
  | _ => .error (.syntaxError line)

/-- `op xs1` (R108). -/
def operandsR (build : Reg → Instr) (line : List Char) : List (List Char) → Except AsmError Instr
  | [t1] => do
    let r1 ← registerOperand line t1
    return build r1
  | _ => .error (.syntaxError line)

/-- The operands of each mnemonic, in the order of R108; checked in the order of R222: count, registers left to right,
literal. -/
def parseOperands (m : Mnemonic) (line : List Char) (ts : List (List Char)) : Except AsmError Instr :=
  match m with
  | .add => operandsRRR .add line ts
  | .sub => operandsRRR .sub line ts
  | .and => operandsRRR .and line ts
  | .or => operandsRRR .or line ts
  | .xor => operandsRRR .xor line ts
  | .nor => operandsRRR .nor line ts
  | .slt => operandsRRR .slt line ts
  | .jr => operandsR .jr line ts
  | .addi => operandsRRI .addi line ts
  | .andi => operandsRRI .andi line ts
  | .ori => operandsRRI .ori line ts
  | .xori => operandsRRI .xori line ts
  | .beq => operandsRRI .beq line ts
  | .bne => operandsRRI .bne line ts
  | .lw => operandsRRI .lw line ts
  | .sw => operandsRRI .sw line ts

/-- `parse(line)` (R105 to R108); `none` is a blank line, which is ignored. -/
def parseLine (line : List Char) : Except AsmError (Option Instr) :=
  match tokens line with
  | [] => .ok none
  | t :: ts =>
    match mnemonicOfText t with
    | none => .error (.syntaxError line)
    | some m => (parseOperands m line ts).map some

/-- `parseFile`: every non-blank line in order, failing at the first malformed one (R109). -/
def parseFile : List (List Char) → Except AsmError (List Instr)
  | [] => .ok []
  | line :: rest =>
    match parseLine line with
    | .error e => .error e
    | .ok none => parseFile rest
    | .ok (some i) => (parseFile rest).map (fun is => i :: is)

/-- One line to its word: parse, then encode, the literal's range being the last check (R222). -/
def assembleLine (line : List Char) : Except AsmError (Option Word) :=
  match parseLine line with
  | .error e => .error e
  | .ok none => .ok none
  | .ok (some i) =>
    match encode i with
    | .ok w => .ok (some w)
    | .error e => .error (.encoding e)

/-- A file to its words; "the first malformed line aborts the whole load" (R109, R221, R222). -/
def assembleFile : List (List Char) → Except AsmError (List Word)
  | [] => .ok []
  | line :: rest =>
    match assembleLine line with
    | .error e => .error e
    | .ok none => assembleFile rest
    | .ok (some w) => (assembleFile rest).map (fun ws => w :: ws)

/-- A line of the binary dump: 32 characters, bit 31 leftmost (R112). -/
def dumpLine (w : Word) : List Char := (List.range 32).map (fun k => if w.getLsbD (31 - k) then '1' else '0')

/-- The binary dump: one line per word, in program order (R112). -/
def dump (ws : List Word) : List (List Char) := ws.map dumpLine

end Sys2Proof.Machine
end

