-- ==== Sys2Proof/Safety.lean ====
section
/-! DEFINITION. The words claims are stated in: which states a run can be in (10_state.md R51), which part of a state
an instruction's sequential effect may change (R150), and what it means for a slot to hold a producer (R132). -/

namespace Sys2Proof.Machine

/-- The slot of a stage (R32). -/
def State.slot (s : State) : Stage → Slot
  | .F => s.F
  | .D => s.D
  | .X => s.X
  | .M => s.M
  | .W => s.W

/-- Nothing is in flight and no fault is set. -/
structure State.Drained (s : State) : Prop where
  slots_empty : ∀ st, s.slot st = none
  no_fault : s.fault = none

/-- `t` differs from `s` in nothing but the register file and the pc: what a sequential effect may change (R150). -/
structure SameButRegsPc (s t : State) : Prop where
  F : t.F = s.F
  D : t.D = s.D
  X : t.X = s.X
  M : t.M = s.M
  W : t.W = s.W
  cycleCount : t.cycleCount = s.cycleCount
  fetchCount : t.fetchCount = s.fetchCount
  done : t.done = s.done
  fault : t.fault = s.fault
  imem : t.imem = s.imem

/-- `x[rd] <- v` and nothing else, as the register file shows it: rd reads v unless it is register 0, every other
register reads as before (R22). -/
def WritesOnly (s t : State) (rd : Reg) (v : Word) : Prop :=
  (rd ≠ 0 → t.reg rd = v) ∧ t.reg 0 = 0 ∧ (∀ r, r ≠ rd → t.reg r = s.reg r) ∧ (rd = 0 → t.regs = s.regs)

/-- The record was fetched from program index k: its ipc is PROGRAM_BASE + 4k with k < N and its Instruction is
program[k] (R51 ii). -/
def FetchedFrom (m : Memory) (r : InFlight) : Prop :=
  ∃ k w, m.words[k]? = some w ∧ r.ipc.toNat = m.base.toNat + 4 * k ∧ decode w = .ok r.instr

/-- op1 is set, and op2 is set unless the instruction is a jr (R51 iii). -/
def OperandsSet (r : InFlight) : Prop :=
  r.op1.isSome = true ∧ (r.instr.mnemonic ≠ .jr → r.op2.isSome = true)

/-- The result is set if the instruction's aluOperation is 1 (R51 iv). -/
def ResultSet (r : InFlight) : Prop :=
  (signals r.instr.mnemonic).aluOperation = true → r.result.isSome = true

/-- The invariant of every reachable state: R51 (i) to (iv), with what makes it inductive: the loaded memory's form
(R9, R252), F's record as Fetch creates it (R31), D's operands set (R139), X's result set (R142), and done only over
empty slots (R145). -/
structure Inv (s : State) : Prop where
  memory_wf : s.imem.wf = true
  register_zero : s.regs[0] = 0
  fetched : ∀ st r, s.slot st = some r → FetchedFrom s.imem r
  scratch_unset : ∀ r, s.F = some r → r = fetchedRecord r.instr r.ipc
  operands_set : ∀ st r, st ≠ .F → s.slot st = some r → OperandsSet r
  results_set : ∀ st r, st ≠ .F → st ≠ .D → s.slot st = some r → ResultSet r
  done_empty : s.done = true → ∀ st, s.slot st = none

/-- The slot holds a record that will write a register the record `c` reads (R132). -/
def HoldsProducer (slot : Slot) (c : InFlight) : Prop :=
  ∃ p d, slot = some p ∧ (signals p.instr.mnemonic).writesRegister = true ∧ dest p.instr = some d ∧ d ≠ 0 ∧
    d ∈ sources c.instr

/-- `s` with the operand fields of D's record, if it holds one, replaced. -/
def State.withOperandsInD (s : State) (a b : Option Word) : State :=
  { s with D := s.D.map (fun r => { r with op1 := a, op2 := b }) }

/-- No advance of the first `n` from `s` has a control request: no hazard and no taken transfer (R152). -/
def Undisturbed (n : Nat) (s : State) : Prop :=
  ∀ k t, k < n → core.run k s = .next t → ctl t = .proceed

/-- How many of the first `n` advances from `s` have a Stall request (S of R266). -/
def stallCycles : Nat → State → Nat
  | 0, _ => 0
  | n + 1, s =>
    match step s with
    | .next t => (if ctl s = .stall then 1 else 0) + stallCycles n t
    | _ => 0

/-- The instruction the sequential reading runs next is a taken control transfer (R200 read at R150's state). -/
def transfersNext (s : State) : Bool :=
  match s.imem.fetch s.pc with
  | .instr i => taken (decodeLogic s.regs (fetchedRecord i s.pc))
  | _ => false

/-- How many of the first `n` instructions of the sequential reading are taken transfers (T' of R266). -/
def takenTransfers : Nat → State → Nat
  | 0, _ => 0
  | n + 1, s =>
    match seqStep s with
    | some (.next t) => (if transfersNext s then 1 else 0) + takenTransfers n t
    | _ => 0

end Sys2Proof.Machine
end

