-- ==== Sys2Proof/Certificates/Slice0/Obligations.lean ====
section
/-! DEFINITION. The statements for the provers. Each docstring names the rule of spec/ it formalises. -/

open Sys2Proof Sys2Proof.Machine

/-! ## Reset, load and the invariant -/

/-- R250: reset puts every piece of state at the value of R50's table, keeps the loaded program, and the first advance
after it is cycle 1. -/
def Obligations.ResetPutsEveryPieceAtItsValue : Prop :=
  ∀ s : State,
    (∀ r : Reg, (hostReset s).regs[r] = 0 ∧ (hostReset s).reg r = 0) ∧
    (hostReset s).pc = s.imem.base ∧
    (∀ st, (hostReset s).slot st = none) ∧
    (hostReset s).cycleCount = 0 ∧ (hostReset s).fetchCount = 0 ∧
    (hostReset s).done = false ∧ (hostReset s).fault = none ∧
    (hostReset s).imem = s.imem ∧
    ∀ t, step (hostReset s) = .next t → t.cycleCount = 1

/-- R51 (i) to (iv): the invariant holds at reset. PROGRAM_BASE = 0 and the empty program of `State.reset` are the
model's choices (assumptions 2 and 3). -/
def Obligations.ResetMeetsTheInvariant : Prop := Inv State.reset

/-- R252: what a load establishes, on a machine whose PROGRAM_BASE is a multiple of 4. -/
def Obligations.LoadedStatesMeetTheInvariant : Prop :=
  ∀ (ws : List Word) (s t : State), s.imem.base.toNat % 4 = 0 → load ws s = .ok t → Inv t

/-- R51 (i) to (iv): every advance keeps the invariant. -/
def Obligations.EveryStepKeepsTheInvariant : Prop :=
  ∀ s t : State, Inv s → step s = .next t → Inv t

/-- R252, for the sequences it lets the host present: a program of legal words is placed at PROGRAM_BASE, every other
address is unmapped and the machine is reset; else the first word that does not decode is reported with its index and
there is no new state. -/
def Obligations.LoadChecksEveryWordThenResets : Prop :=
  ∀ (ws : List Word) (s : State), s.imem.base.toNat + 4 * ws.length ≤ 2 ^ 32 →
    ((∀ w ∈ ws, ∃ i, decode w = .ok i) →
      ∃ t, load ws s = .ok t ∧ t = hostReset { s with imem := t.imem } ∧ t.imem.base = s.imem.base ∧
        ∀ a w, t.imem.read a = some w ↔ ∃ k, a = s.imem.base.toNat + 4 * k ∧ ws[k]? = some w) ∧
    (∀ pre w post, ws = pre ++ w :: post → (∀ v ∈ pre, ∃ i, decode v = .ok i) → (∀ i, decode w ≠ .ok i) →
      load ws s = .error (.decodingError pre.length w))

/-- R61, R63, R134 over a loaded memory: which of the three answers Fetch finds at a pc. -/
def Obligations.FetchLookupByAddress : Prop :=
  ∀ (m : Memory) (pc : Word), m.wf = true →
    (m.fetch pc = .outside ↔ ¬ (m.base.toNat ≤ pc.toNat ∧ pc.toNat < m.base.toNat + 4 * m.words.length)) ∧
    (m.fetch pc = .misaligned ↔
      m.base.toNat ≤ pc.toNat ∧ pc.toNat < m.base.toNat + 4 * m.words.length ∧ pc.toNat % 4 ≠ 0) ∧
    (∀ i, m.fetch pc = .instr i ↔
      ∃ k w, m.words[k]? = some w ∧ pc.toNat = m.base.toNat + 4 * k ∧ decode w = .ok i)

/-- R21, R22: register 0 reads 0 and drops writes; every other register reads its stored value and a write replaces
that one value. -/
def Obligations.RegisterFileReadsAndWrites : Prop :=
  ∀ (s : State) (r q : Reg) (v : Word),
    s.reg 0 = 0 ∧ (q ≠ 0 → s.reg q = s.regs[q]) ∧
    s.setReg 0 v = s ∧
    (r ≠ 0 → (s.setReg r v).reg r = v) ∧
    (q ≠ r → (s.setReg r v).reg q = s.reg q) ∧
    SameButRegsPc s (s.setReg r v) ∧ (s.setReg r v).pc = s.pc

/-! ## The instructions' sequential effects -/

/-- R150 for add, sub, slt (R181, R182, R187): each completes in every state, with its value in rd (dropped when rd is
register 0), pc + 4 modulo 2^32 and nothing else changed. -/
def Obligations.ArithmeticRTypesComplete : Prop :=
  ∀ (rd rs1 rs2 : Reg) (s : State),
    (∃ t, exec (.add rd rs1 rs2) s = .next t ∧ WritesOnly s t rd (s.reg rs1 + s.reg rs2) ∧
      t.pc = s.pc + 4 ∧ SameButRegsPc s t) ∧
    (∃ t, exec (.sub rd rs1 rs2) s = .next t ∧ WritesOnly s t rd (s.reg rs1 - s.reg rs2) ∧
      t.pc = s.pc + 4 ∧ SameButRegsPc s t) ∧
    (∃ t, exec (.slt rd rs1 rs2) s = .next t ∧
      WritesOnly s t rd (if (s.reg rs1).toInt < (s.reg rs2).toInt then 1 else 0) ∧
      t.pc = s.pc + 4 ∧ SameButRegsPc s t)

/-- R150 for and, or, xor, nor (R183 to R186): each completes in every state; the bits of rd's new value are the
operation on the sources' bits. -/
def Obligations.LogicalRTypesComplete : Prop :=
  ∀ (rd rs1 rs2 : Reg) (s : State),
    (∃ t, exec (.and rd rs1 rs2) s = .next t ∧ WritesOnly s t rd (s.reg rs1 &&& s.reg rs2) ∧
      t.pc = s.pc + 4 ∧ SameButRegsPc s t) ∧
    (∃ t, exec (.or rd rs1 rs2) s = .next t ∧ WritesOnly s t rd (s.reg rs1 ||| s.reg rs2) ∧
      t.pc = s.pc + 4 ∧ SameButRegsPc s t) ∧
    (∃ t, exec (.xor rd rs1 rs2) s = .next t ∧ WritesOnly s t rd (s.reg rs1 ^^^ s.reg rs2) ∧
      t.pc = s.pc + 4 ∧ SameButRegsPc s t) ∧
    (∃ t, exec (.nor rd rs1 rs2) s = .next t ∧ WritesOnly s t rd (~~~(s.reg rs1 ||| s.reg rs2)) ∧
      t.pc = s.pc + 4 ∧ SameButRegsPc s t)

/-- R150 for addi, andi, ori, xori (R190 to R195): each completes in every state, for every immediate the encoding
admits, the second operand being the sign extension of the 12-bit field. -/
def Obligations.ImmediateITypesComplete : Prop :=
  ∀ (rd rs1 : Reg) (imm : Int) (s : State), -2048 ≤ imm → imm ≤ 2047 →
    (∃ t, exec (.addi rd rs1 imm) s = .next t ∧
      WritesOnly s t rd (s.reg rs1 + (BitVec.ofInt 12 imm).signExtend 32) ∧ t.pc = s.pc + 4 ∧ SameButRegsPc s t) ∧
    (∃ t, exec (.andi rd rs1 imm) s = .next t ∧
      WritesOnly s t rd (s.reg rs1 &&& (BitVec.ofInt 12 imm).signExtend 32) ∧ t.pc = s.pc + 4 ∧ SameButRegsPc s t) ∧
    (∃ t, exec (.ori rd rs1 imm) s = .next t ∧
      WritesOnly s t rd (s.reg rs1 ||| (BitVec.ofInt 12 imm).signExtend 32) ∧ t.pc = s.pc + 4 ∧ SameButRegsPc s t) ∧
    (∃ t, exec (.xori rd rs1 imm) s = .next t ∧
      WritesOnly s t rd (s.reg rs1 ^^^ (BitVec.ofInt 12 imm).signExtend 32) ∧ t.pc = s.pc + 4 ∧ SameButRegsPc s t)

/-- R150 for beq and bne (R201, R202): each completes in every state; only the pc changes, to the branch's own address
plus 4×off when the condition on the whole Words holds, else to pc + 4. -/
def Obligations.BranchesComplete : Prop :=
  ∀ (rs1 rs2 : Reg) (off : Int) (s : State),
    (∃ t, exec (.beq rs1 rs2 off) s = .next t ∧ t.regs = s.regs ∧ SameButRegsPc s t ∧
      (s.reg rs1 = s.reg rs2 → t.pc = s.pc + BitVec.ofInt 32 (4 * off)) ∧
      (s.reg rs1 ≠ s.reg rs2 → t.pc = s.pc + 4)) ∧
    (∃ t, exec (.bne rs1 rs2 off) s = .next t ∧ t.regs = s.regs ∧ SameButRegsPc s t ∧
      (s.reg rs1 ≠ s.reg rs2 → t.pc = s.pc + BitVec.ofInt 32 (4 * off)) ∧
      (s.reg rs1 = s.reg rs2 → t.pc = s.pc + 4))

/-- R150 for jr (R203): it completes in every state; the pc becomes the register's value unmodified, and nothing else
changes (no link). -/
def Obligations.JumpRegisterCompletes : Prop :=
  ∀ (rs1 : Reg) (s : State),
    ∃ t, exec (.jr rs1) s = .next t ∧ t.pc = s.reg rs1 ∧ t.regs = s.regs ∧ SameButRegsPc s t

/-- R150 for lw and sw (R210, R211): each completes in every state with pc + 4; no register and no memory changes. -/
def Obligations.LoadStorePlaceholdersComplete : Prop :=
  ∀ (a b : Reg) (imm : Int) (s : State),
    (∃ t, exec (.lw a b imm) s = .next t ∧ t.pc = s.pc + 4 ∧ t.regs = s.regs ∧ SameButRegsPc s t) ∧
    (∃ t, exec (.sw a b imm) s = .next t ∧ t.pc = s.pc + 4 ∧ t.regs = s.regs ∧ SameButRegsPc s t)

/-- R23: whatever the instruction, exec changes no register but the destination of one whose writesRegister signal
is 1, and nothing else but the pc. -/
def Obligations.OnlyTheDestinationRegisterChanges : Prop :=
  ∀ (i : Instr) (s t : State), exec i s = .next t →
    SameButRegsPc s t ∧
    ∀ r, ¬ ((signals i.mnemonic).writesRegister = true ∧ dest i = some r ∧ r ≠ 0) → t.regs[r] = s.regs[r]

/-- R150: one step of the sequential reading is halted, a fault, or exec of the instruction fetched at the pc. -/
def Obligations.SequentialStepRunsTheFetchedInstruction : Prop :=
  ∀ (s : State) (i : Instr),
    (s.imem.fetch s.pc = .instr i → seqStep s = some (exec i s)) ∧
    (s.imem.fetch s.pc = .outside → seqStep s = none) ∧
    (s.imem.fetch s.pc = .misaligned → seqStep s = some (.fault (.fetchMisaligned s.pc)))

/-- R180, R190, R201 to R203, R210, R211: the by-stage pseudocode of every instruction, its stages run back to back,
is its sequential effect. -/
def Obligations.SequentialEffectIsTheStagesInTurn : Prop :=
  ∀ (i : Instr) (s : State), exec i s = .next (passThrough i s)

/-! ## The advance -/

/-- R133 and the in-range case of R134: when the word at the pc decodes to i and there is no control request, the step
puts i's record in F with its scratch fields unset, adds 4 to the pc and 1 to fetchCount, and moves every older record
one slot on. -/
def Obligations.StepFetchesTheDecodedInstruction : Prop :=
  ∀ (s : State) (i : Instr), s.fault = none → ctl s = .proceed → s.imem.fetch s.pc = .instr i →
    ∃ t, step s = .next t ∧
      t.F = some { instr := i, ipc := s.pc, op1 := none, op2 := none, result := none } ∧
      t.D = s.F.map (decodeLogic s.regs) ∧ t.X = s.D.map executeLogic ∧ t.M = s.X ∧ t.W = s.M ∧
      t.pc = s.pc + 4 ∧ t.fetchCount = s.fetchCount + 1 ∧ t.cycleCount = s.cycleCount + 1 ∧
      t.done = false ∧ t.fault = none ∧ t.imem = s.imem ∧ t.regs = writeBackLogic s.regs s.M

/-- How a step runs the decoded instruction (R137 to R144, R265): in an empty pipeline the instruction fetched now is
in X after three advances, where its control transfer is exactly the pc its sequential effect gives, and in W after
five, where the register file is the one its sequential effect gives. -/
def Obligations.FiveAdvancesRunTheFetchedInstruction : Prop :=
  ∀ (s : State) (i : Instr), s.imem.wf = true → s.Drained → s.imem.fetch s.pc = .instr i →
    ∃ e t₃ r t₅ w,
      exec i s = .next e ∧
      core.run 3 s = .next t₃ ∧ t₃.X = some r ∧ r.instr = i ∧ r.ipc = s.pc ∧
      (∀ a, transfer r = some a → e.pc = a ∧ ctl t₃ = .branch a) ∧ (transfer r = none → e.pc = s.pc + 4) ∧
      core.run 5 s = .next t₅ ∧ t₅.W = some w ∧ w.instr = i ∧ w.ipc = s.pc ∧ t₅.regs = e.regs

/-- R151 (a): if the sequential reading of a loaded program halts with registers R and pc P, run-to-completion reaches
done with registers R and pc P. -/
def Obligations.HaltingProgramsAgree : Prop :=
  ∀ (m : Memory) (n : Nat) (e : State), m.wf = true →
    seqRun n (State.atReset m) = some e → seqStep e = none →
    ∃ fuel u, runToCompletion fuel (State.atReset m) = some (.next u) ∧
      u.done = true ∧ u.fault = none ∧ u.regs = e.regs ∧ u.pc = e.pc

/-- R151 (b): if the sequential reading faults with FetchMisaligned(a) and registers R, the pipeline sets that fault
with registers R. -/
def Obligations.FaultingProgramsAgree : Prop :=
  ∀ (m : Memory) (n : Nat) (e : State) (a : Word), m.wf = true →
    seqRun n (State.atReset m) = some e → seqStep e = some (.fault (.fetchMisaligned a)) →
    ∃ fuel u, runToCompletion fuel (State.atReset m) = some (.next u) ∧
      u.done = false ∧ u.fault = some (.fetchMisaligned a) ∧ u.regs = e.regs ∧ u.pc = a

/-- R151 (c): if the sequential reading runs forever, done never becomes true, and no advance stops. -/
def Obligations.EndlessProgramsAgree : Prop :=
  ∀ m : Memory, m.wf = true → (∀ n, (seqRun n (State.atReset m)).isSome = true) →
    ∀ k, ∃ u, core.run k (State.atReset m) = .next u ∧ u.done = false ∧ u.fault = none

/-- R139: the operands of whatever record is in D after an advance, read from the register file as it was before. -/
def Obligations.DecodeReadsTheOldRegisters : Prop :=
  ∀ (s t : State) (r : InFlight), step s = .next t → t.D = some r →
    match r.instr with
    | .add _ a b | .sub _ a b | .and _ a b | .or _ a b | .xor _ a b | .nor _ a b | .slt _ a b =>
        r.op1 = some (s.reg a) ∧ r.op2 = some (s.reg b)
    | .jr a => r.op1 = some (s.reg a) ∧ r.op2 = none
    | .addi _ a imm | .andi _ a imm | .ori _ a imm | .xori _ a imm =>
        r.op1 = some (s.reg a) ∧ r.op2 = some (BitVec.ofInt 32 imm)
    | .beq a b _ | .bne a b _ => r.op1 = some (s.reg a) ∧ r.op2 = some (s.reg b)
    | .lw _ a imm | .sw _ a imm => r.op1 = some (s.reg a) ∧ r.op2 = some (BitVec.ofInt 32 imm)

/-- R142: a record enters X from D with its fields and the result of the Execute table; where the mnemonic has no
entry the result field stays as it was. That a record other than a jr's whose operand 2 is unset, which no run puts in
D (R51 iii), keeps its result field too is the model's inference (assumption 8). -/
def Obligations.ExecuteComputesTheTabledResult : Prop :=
  ∀ (s t : State) (r : InFlight), step s = .next t → t.X = some r →
    ∃ d, s.D = some d ∧ r.instr = d.instr ∧ r.ipc = d.ipc ∧ r.op1 = d.op1 ∧ r.op2 = d.op2 ∧
      (d.op2 = none → r.result = d.result) ∧
      ∀ a b, d.op1 = some a → d.op2 = some b →
        match d.instr with
        | .add .. | .addi .. => r.result = some (a + b)
        | .sub .. => r.result = some (a - b)
        | .and .. | .andi .. => r.result = some (a &&& b)
        | .or .. | .ori .. => r.result = some (a ||| b)
        | .xor .. | .xori .. => r.result = some (a ^^^ b)
        | .nor .. => r.result = some (~~~(a ||| b))
        | .slt .. => r.result = some (if a.toInt < b.toInt then 1 else 0)
        | .jr .. | .beq .. | .bne .. | .lw .. | .sw .. => r.result = d.result

/-- R143 and R65: a record enters M from X unchanged, lw and sw included, and no advance changes the memory. -/
def Obligations.MemoryAccessPassesThrough : Prop :=
  ∀ s t : State, step s = .next t → t.M = s.X ∧ t.imem = s.imem

/-- R144: the register file changes exactly when the record entering W has writesRegister = 1 and a destination other
than register 0, and then in that one register. -/
def Obligations.WriteBackWritesOnlyTheDestination : Prop :=
  ∀ s t : State, step s = .next t →
    t.W = s.M ∧
    (∀ r d v, s.M = some r → (signals r.instr.mnemonic).writesRegister = true → dest r.instr = some d → d ≠ 0 →
      r.result = some v → WritesOnly s t d v) ∧
    ((∀ r d, s.M = some r → (signals r.instr.mnemonic).writesRegister = true → dest r.instr = some d → d = 0) →
      t.regs = s.regs)

/-- R131: the control request of a state; a taken transfer in X has priority over a hazard in D and is seen by one
request only, since X is Empty after its redirect. -/
def Obligations.TakenTransferHasPriorityOverHazard : Prop :=
  ∀ s : State,
    (∀ r a, s.X = some r → taken r = true → target r = some a →
      ctl s = .branch a ∧ ∀ t, step s = .next t → t.X = none) ∧
    ((∀ r, s.X = some r → taken r = false) → hazard s = true → ctl s = .stall) ∧
    ((∀ r, s.X = some r → taken r = false) → hazard s = false → ctl s = .proceed)

/-- R132: the hazard predicate, by stage, and the sources it compares against. -/
def Obligations.HazardNamesItsProducer : Prop :=
  (∀ s : State, hazard s = true ↔
    ∃ c st p d, s.D = some c ∧ (st = .X ∨ st = .M ∨ st = .W) ∧ s.slot st = some p ∧
      (signals p.instr.mnemonic).writesRegister = true ∧ dest p.instr = some d ∧ d ≠ 0 ∧ d ∈ sources c.instr) ∧
  ∀ (i : Instr) (r : Reg), r ∈ sources i ↔
    match i with
    | .add _ a b | .sub _ a b | .and _ a b | .or _ a b | .xor _ a b | .nor _ a b | .slt _ a b => r = a ∨ r = b
    | .beq a b _ | .bne a b _ | .sw b a _ => r = a ∨ r = b
    | .jr a | .addi _ a _ | .andi _ a _ | .ori _ a _ | .xori _ a _ | .lw _ a _ => r = a

/-- R200: when a record that has been through Decode transfers control, and where to. -/
def Obligations.TransfersByConstructor : Prop :=
  ∀ r : InFlight, OperandsSet r →
    match r.instr with
    | .beq _ _ off => (taken r = true ↔ r.op1 = r.op2) ∧ target r = some (r.ipc + BitVec.ofInt 32 (4 * off))
    | .bne _ _ off => (taken r = true ↔ r.op1 ≠ r.op2) ∧ target r = some (r.ipc + BitVec.ofInt 32 (4 * off))
    | .jr _ => taken r = true ∧ target r = r.op1
    | .add .. | .sub .. | .and .. | .or .. | .xor .. | .nor .. | .slt .. => taken r = false
    | .addi .. | .andi .. | .ori .. | .xori .. | .lw .. | .sw .. => taken r = false

/-- R135: a stall holds F and D, puts the bubble into X, lets old X and old M move on, and changes neither pc nor
fetchCount. -/
def Obligations.StallHoldsFAndD : Prop :=
  ∀ s : State, s.fault = none → ctl s = .stall →
    ∃ t, step s = .next t ∧ t.W = s.M ∧ t.M = s.X ∧ t.X = none ∧ t.D = s.D.map (decodeLogic s.regs) ∧ t.F = s.F ∧
      t.pc = s.pc ∧ t.fetchCount = s.fetchCount ∧ t.cycleCount = s.cycleCount + 1 ∧ t.fault = none ∧
      t.done = false ∧ t.imem = s.imem ∧ t.regs = writeBackLogic s.regs s.M

/-- R136: a redirect sends the transfer itself on to M, empties X, D and F, and sets the pc to the target; nothing is
fetched, and the next advance has no request, so that it fetches at the target. -/
def Obligations.RedirectSquashesFAndD : Prop :=
  ∀ (s : State) (a : Word), s.fault = none → ctl s = .branch a →
    ∃ t, step s = .next t ∧ t.W = s.M ∧ t.M = s.X ∧ t.X = none ∧ t.D = none ∧ t.F = none ∧
      t.pc = a ∧ ctl t = .proceed ∧ t.fetchCount = s.fetchCount ∧ t.cycleCount = s.cycleCount + 1 ∧ t.fault = none ∧
      t.done = false ∧ t.imem = s.imem ∧ t.regs = writeBackLogic s.regs s.M

/-- R134, out of range: F receives Empty, pc and fetchCount keep their values, and it is not a fault. -/
def Obligations.OutOfRangeFetchIsEmpty : Prop :=
  ∀ s : State, s.fault = none → ctl s = .proceed →
    ¬ (s.imem.base.toNat ≤ s.pc.toNat ∧ s.pc.toNat < s.imem.base.toNat + 4 * s.imem.words.length) →
    ∃ t, step s = .next t ∧ t.F = none ∧ t.pc = s.pc ∧ t.fetchCount = s.fetchCount ∧ t.fault = none ∧
      t.D = s.F.map (decodeLogic s.regs) ∧ t.X = s.D.map executeLogic ∧ t.M = s.X ∧ t.W = s.M ∧
      t.cycleCount = s.cycleCount + 1 ∧ t.imem = s.imem ∧ t.regs = writeBackLogic s.regs s.M

/-- R63 and the effect in R224: a fetch inside the program region at a pc that is no multiple of 4 sets
FetchMisaligned(pc), leaves pc and fetchCount unchanged and F Empty, and the rest of that advance completes; no later
advance is defined. -/
def Obligations.MisalignedFetchFaults : Prop :=
  ∀ s : State, s.fault = none → ctl s = .proceed →
    s.imem.base.toNat ≤ s.pc.toNat → s.pc.toNat < s.imem.base.toNat + 4 * s.imem.words.length → s.pc.toNat % 4 ≠ 0 →
    ∃ t, step s = .next t ∧ t.fault = some (.fetchMisaligned s.pc) ∧ t.F = none ∧ t.pc = s.pc ∧
      t.fetchCount = s.fetchCount ∧ t.cycleCount = s.cycleCount + 1 ∧
      t.D = s.F.map (decodeLogic s.regs) ∧ t.X = s.D.map executeLogic ∧ t.M = s.X ∧ t.W = s.M ∧
      t.imem = s.imem ∧ t.regs = writeBackLogic s.regs s.M ∧ step t = .fault (.fetchMisaligned s.pc)

/-- R36, R148: no advance is defined in a faulted state; only reset clears the fault. -/
def Obligations.FaultedMachineIsStuck : Prop :=
  ∀ (s : State) (f : Fault), s.fault = some f → step s = .fault f ∧ (hostReset s).fault = none

/-- R224, R225: a fault is set by no other event than a fetch, with no control request, inside the program region at
a pc that is no multiple of 4, and it records that pc. -/
def Obligations.OnlyAMisalignedFetchSetsTheFault : Prop :=
  ∀ (s t : State) (f : Fault), step s = .next t → t.fault = some f →
    ctl s = .proceed ∧ s.imem.base.toNat ≤ s.pc.toNat ∧
      s.pc.toNat < s.imem.base.toNat + 4 * s.imem.words.length ∧ s.pc.toNat % 4 ≠ 0 ∧ f = .fetchMisaligned s.pc

/-- R26, R224: in a reachable state whose pc is a multiple of 4, only a jr in X can make the pc anything else, and then
the pc is the value that jr read. -/
def Obligations.OnlyAJumpRegisterMisalignsThePc : Prop :=
  ∀ s t : State, Inv s → s.pc.toNat % 4 = 0 → step s = .next t → t.pc.toNat % 4 ≠ 0 →
    ∃ r rs1 v, s.X = some r ∧ r.instr = .jr rs1 ∧ r.op1 = some v ∧ t.pc = v

/-- R25: the three ways the pc changes. -/
def Obligations.PcChangesInThreeWays : Prop :=
  ∀ s t : State, step s = .next t →
    ((∃ i, ctl s = .proceed ∧ s.imem.fetch s.pc = .instr i) → t.pc = s.pc + 4) ∧
    (ctl s = .stall ∨ (ctl s = .proceed ∧ s.imem.fetch s.pc = .outside) → t.pc = s.pc) ∧
    (∀ a, ctl s = .branch a → t.pc = a) ∧
    (t.pc ≠ s.pc → (∃ i, ctl s = .proceed ∧ s.imem.fetch s.pc = .instr i) ∨ ∃ a, ctl s = .branch a)

/-- R145, first sentence: after every advance done says exactly whether all five slots are Empty. -/
def Obligations.DoneMeansAllSlotsEmpty : Prop :=
  ∀ s t : State, step s = .next t → (t.done = true ↔ ∀ st, t.slot st = none)

/-- R145, R148: once true after an advance that set no fault, done stays true, and an advance in a done state changes
only cycleCount. -/
def Obligations.DoneIsAbsorbing : Prop :=
  ∀ s t : State, step s = .next t → t.done = true → t.fault = none →
    step t = .next { t with cycleCount := t.cycleCount + 1 }

/-- R146: cycleCount counts every advance, fetchCount exactly the advances that fetch a word. -/
def Obligations.CountersCountAdvancesAndFetches : Prop :=
  ∀ s t : State, step s = .next t →
    t.cycleCount = s.cycleCount + 1 ∧
    ((∃ i, ctl s = .proceed ∧ s.imem.fetch s.pc = .instr i) → t.fetchCount = s.fetchCount + 1) ∧
    ((¬ ∃ i, ctl s = .proceed ∧ s.imem.fetch s.pc = .instr i) → t.fetchCount = s.fetchCount)

/-- R134, R252: over a loaded program an advance without a fault always completes. -/
def Obligations.LoadedMachineAlwaysAdvances : Prop :=
  ∀ s : State, Inv s → s.fault = none → ∃ t, step s = .next t

/-! ## Timing -/

/-- R154: a consumer in D is held 3, 2 or 1 cycles by a nearest producer in X, M or W, and not at all without one; no
other rule of the interlock prolongs it. -/
def Obligations.StallLengthByProducerDistance : Prop :=
  ∀ (s : State) (c : InFlight), s.fault = none → s.X.bind transfer = none → s.D = some c →
    (HoldsProducer s.X c → ∃ t₁ t₂ t₃, step s = .next t₁ ∧ step t₁ = .next t₂ ∧ step t₂ = .next t₃ ∧
      ctl s = .stall ∧ ctl t₁ = .stall ∧ ctl t₂ = .stall ∧ ctl t₃ = .proceed) ∧
    (¬ HoldsProducer s.X c → HoldsProducer s.M c → ∃ t₁ t₂, step s = .next t₁ ∧ step t₁ = .next t₂ ∧
      ctl s = .stall ∧ ctl t₁ = .stall ∧ ctl t₂ = .proceed) ∧
    (¬ HoldsProducer s.X c → ¬ HoldsProducer s.M c → HoldsProducer s.W c → ∃ t₁, step s = .next t₁ ∧
      ctl s = .stall ∧ ctl t₁ = .proceed) ∧
    (¬ HoldsProducer s.X c → ¬ HoldsProducer s.M c → ¬ HoldsProducer s.W c → ctl s = .proceed)

/-- R155: a taken transfer in X costs the redirect cycle and the two records behind it; the advance after the redirect
fetches at the target into an otherwise empty front end. -/
def Obligations.TakenTransferRefetchesAtItsTarget : Prop :=
  ∀ (s : State) (r : InFlight) (a : Word) (i : Instr), s.fault = none → s.X = some r → transfer r = some a →
    s.imem.fetch a = .instr i →
    ∃ u v, step s = .next u ∧ u.F = none ∧ u.D = none ∧ u.X = none ∧ u.M = some r ∧ u.fetchCount = s.fetchCount ∧
      step u = .next v ∧ v.F = some (fetchedRecord i a) ∧ v.D = none ∧ v.X = none ∧ v.M = none ∧ v.W = some r ∧
      v.pc = a + 4 ∧ v.fetchCount = s.fetchCount + 1

/-- R152, R153: in a program in which no advance has a control request, instruction k (from 0) is in stage j (F, D, X,
M, W from 0) after cycle k + 1 + j. A program that fills the whole address space is left out (assumption 18). -/
def Obligations.UndisturbedInstructionMovesOneSlotPerCycle : Prop :=
  ∀ m : Memory, m.wf = true → (m.base ≠ 0 ∨ m.limit < 2 ^ 32) →
    Undisturbed (m.words.length + 5) (State.atReset m) →
    ∀ k < m.words.length, ∀ (j : Nat) (st : Stage), [Stage.F, Stage.D, Stage.X, Stage.M, Stage.W][j]? = some st →
      ∃ t r, core.run (k + 1 + j) (State.atReset m) = .next t ∧ t.slot st = some r ∧
        r.ipc.toNat = m.base.toNat + 4 * k

/-- R152: for N ≥ 1 and no control request the last register write happens in cycle N + 4, done is false until then
and first true after cycle N + 5, with N words fetched. A program that fills the whole address space is left out
(assumption 18). -/
def Obligations.UndisturbedProgramIsDoneAfterNPlusFive : Prop :=
  ∀ m : Memory, m.wf = true → (m.base ≠ 0 ∨ m.limit < 2 ^ 32) → 1 ≤ m.words.length →
    Undisturbed (m.words.length + 5) (State.atReset m) →
    (∀ k ≤ m.words.length + 4, ∃ t, core.run k (State.atReset m) = .next t ∧ t.done = false) ∧
    ∃ t u, core.run (m.words.length + 4) (State.atReset m) = .next t ∧
      core.run (m.words.length + 5) (State.atReset m) = .next u ∧
      u.done = true ∧ u.fault = none ∧ u.regs = t.regs ∧ u.pc = t.pc ∧ u.fetchCount = m.words.length

/-- R266: a run in which the sequential reading executes n ≥ 1 instructions and halts commits the last of them in cycle
n + 4 + S + 3×T' and is done, for the first time, after cycle n + 5 + S + 3×T', with S its stall cycles and T' its taken
transfers other than a last instruction's; the empty program is done after cycle 1. -/
def Obligations.CyclesToDone : Prop :=
  (∀ (m : Memory) (n : Nat) (p e : State), m.wf = true →
    seqRun n (State.atReset m) = some p → seqStep p = some (.next e) → seqStep e = none →
    ∃ c t u w, c = (n + 1) + 4 + stallCycles c (State.atReset m) + 3 * takenTransfers n (State.atReset m) ∧
      core.run c (State.atReset m) = .next t ∧ t.W = some w ∧ w.ipc = p.pc ∧ t.regs = e.regs ∧
      (∀ k ≤ c, ∃ v, core.run k (State.atReset m) = .next v ∧ v.done = false) ∧
      step t = .next u ∧ u.done = true) ∧
  ∀ base : Word, ∃ u, step (State.atReset ⟨base, []⟩) = .next u ∧ u.done = true

/-- R136, R200: the two records behind a taken transfer have no effect: whatever F and D hold, the advance is the
same. -/
def Obligations.WrongPathRecordsHaveNoEffect : Prop :=
  ∀ (s : State) (a : Word) (F D : Slot), ctl s = .branch a → step { s with F := F, D := D } = step s

/-- R140: operand values read while a hazard is pending are never used: whatever the operand fields of a held record
are, the advance is the same. -/
def Obligations.StaleOperandsAreNeverUsed : Prop :=
  ∀ (s : State) (a b : Option Word), ctl s = .stall → step (s.withOperandsInD a b) = step s

/-! ## Encoding -/

/-- R98, first direction: every well-formed instruction encodes, and its word decodes to it, every field included. -/
def Obligations.DecodeOfEncodeIsTheInstruction : Prop :=
  ∀ i : Instr, i.wf = true → ∃ w, encode i = .ok w ∧ decode w = .ok i

/-- R98, other direction, and R97: a word that decodes is the encoding of its instruction, but for the ten bits of a jr
word that decode ignores and encode writes as zero. -/
def Obligations.EncodeOfDecodeIsTheWord : Prop :=
  ∀ (w : Word) (i : Instr), decode w = .ok i →
    (i.mnemonic ≠ .jr → encode i = .ok w) ∧ (i.mnemonic = .jr → encode i = .ok (w &&& 0xFE0FF07F))

/-- R87: the table of R86 has P1 to P4, and with any table that has them encode is total on well-formed instructions
and decode gives them back. -/
def Obligations.AnyGoodTableRoundTrips : Prop :=
  EncTable.Good encTable ∧
  ∀ (t : EncTable) (i : Instr), t.Good → i.wf = true →
    ∃ w, encodeWith t i = .ok w ∧ decodeWith t w = .ok i

/-- R86, R96: a word decodes to an instruction of mnemonic m exactly when it is an instance of m's row by the match
and mask of R86, and is a DecodingError exactly when it is an instance of no row. -/
def Obligations.DecodeAgreesWithMatchAndMask : Prop :=
  ∀ w : Word,
    (∀ m, (∃ i, decode w = .ok i ∧ i.mnemonic = m) ↔ w &&& m.maskWord = m.matchWord) ∧
    (decode w = .error (.noEntry w) ↔ ∀ m : Mnemonic, w &&& m.maskWord ≠ m.matchWord)

/-- R91: encode fails in exactly two cases: no table row, and an immediate or displacement outside −2048 … 2047. -/
def Obligations.EncodeRefusesExactlyTwoCases : Prop :=
  ∀ (t : EncTable) (i : Instr),
    (t i.mnemonic = none → encodeWith t i = .error (.noTableEntry i)) ∧
    (t i.mnemonic ≠ none → (∀ v, i.immField = some v → -2048 ≤ v ∧ v ≤ 2047) → ∃ w, encodeWith t i = .ok w) ∧
    (t i.mnemonic ≠ none → ∀ v, i.immField = some v → ¬ (-2048 ≤ v ∧ v ≤ 2047) →
      encodeWith t i = .error (.immediateRange i))

/-- R92's worked examples and the jr word of 95_test_vectors.md V13, written out bit by bit. -/
def Obligations.WrittenOutWordsDecode : Prop :=
  decode 0b0000000_00011_00010_000_00001_0110011 = .ok (.add 1 2 3) ∧
  decode 0b111111111111_00010_000_00001_0010011 = .ok (.addi 1 2 (-1)) ∧
  decode 0b000000000011_00001_000_00010_1100011 = .ok (.beq 1 2 3) ∧
  decode 0b1111111_00101_11111_000_11111_0110011 = .ok (.jr 31) ∧
  decode 0b000000001000_00110_010_00101_0100011 = .ok (.sw 5 6 8)

/-! ## Control signals, assembly text, observation -/

/-- R29: the control signals by mnemonic, and what a model may rely on: an instruction that writes a register has an
Execute entry. -/
def Obligations.ControlSignalsByMnemonic : Prop :=
  ∀ m : Mnemonic,
    (signals m).readsRegisters = true ∧
    ((signals m).writesRegister = true ↔ m ∈ [.add, .sub, .and, .or, .xor, .nor, .slt, .addi, .andi, .ori, .xori]) ∧
    ((signals m).readsMemory = true ↔ m = .lw) ∧
    ((signals m).writesMemory = true ↔ m = .sw) ∧
    ((signals m).aluOperation = true ↔ m ∈ [.add, .sub, .and, .or, .xor, .nor, .slt, .addi, .andi, .ori, .xori]) ∧
    (∀ a b, (aluResult m a b).isSome = (signals m).aluOperation)

/-- R98 for "every instruction constructible by the Parser": a line that assembles parses to an instruction, and its
word decodes to that instruction. -/
def Obligations.AssembledLinesDecodeBack : Prop :=
  ∀ (line : List Char) (w : Word), assembleLine line = .ok (some w) →
    ∃ i, parseLine line = .ok (some i) ∧ i.wf = true ∧ decode w = .ok i

/-- R105, R110: the first token of a line is one of the 16 mnemonics letter for letter, or the line is a
SyntaxError. -/
def Obligations.OnlyTheSixteenMnemonicsParse : Prop :=
  (∀ (t : List Char) (m : Mnemonic), mnemonicOfText t = some m ↔ t = mnemonicText m) ∧
  ∀ (line t : List Char) (ts : List (List Char)), tokens line = t :: ts → (∀ m, t ≠ mnemonicText m) →
    parseLine line = .error (.syntaxError line)

/-- R106: the register tokens are x0, x1, … , x31; any other token in a register position is a SyntaxError. -/
def Obligations.OnlyX0ToX31AreRegisters : Prop :=
  ∀ (line t : List Char),
    (∀ r : Reg, registerOperand line t = .ok r ↔ t = 'x' :: Nat.toDigits 10 r.val) ∧
    ((∀ r : Reg, t ≠ 'x' :: Nat.toDigits 10 r.val) → registerOperand line t = .error (.syntaxError line))

/-- R109, R221: the whole file fails at the first line, in file order, that does not parse. -/
def Obligations.FileFailsAtItsFirstBadLine : Prop :=
  ∀ (lines : List (List Char)) (e : AsmError),
    parseFile lines = .error e ↔
      ∃ pre line post, lines = pre ++ line :: post ∧ (∀ l ∈ pre, ∃ o, parseLine l = .ok o) ∧ parseLine line = .error e

/-- R112: the dump has one line per word in program order; a line is 32 characters, bit 31 leftmost. -/
def Obligations.DumpLineWritesBit31First : Prop :=
  (∀ (ws : List Word) (n : Nat), (dump ws)[n]? = ws[n]?.map dumpLine) ∧
  ∀ w : Word, (dumpLine w).length = 32 ∧
    ∀ k < 32, (dumpLine w)[k]? = some (if w.getLsbD (31 - k) then '1' else '0')

/-- R42: what the host reads is the state's own values: x0 … x31 with register 0 reading 0, the pc, exactly one entry
per non-empty slot, the counters, done and the fault. -/
def Obligations.ObservationShowsTheState : Prop :=
  ∀ s : State,
    (∀ r : Reg, (observe s).regs[r.val]? = some (s.reg r)) ∧ (observe s).regs.length = 32 ∧
    (observe s).pc = s.pc ∧
    (observe s).slots.Nodup ∧ (∀ st r, ⟨st, r⟩ ∈ (observe s).slots ↔ s.slot st = some r) ∧
    (observe s).cycleCount = s.cycleCount ∧ (observe s).fetchCount = s.fetchCount ∧
    (observe s).done = s.done ∧ (observe s).fault = s.fault
end

