-- ==== Sys2Proof/Laws/Encoding.lean ====
section
/-! SUPPORT. The fields of the two layouts, and what they give back (30_encoding.md R80 to R85). -/

namespace Sys2Proof

variable (f7 op : BitVec 7) (rs2 rs1 rd : BitVec 5) (f3 : BitVec 3) (imm : BitVec 12)

@[simp] theorem opcode_rLayout : opcodeField (rLayout f7 rs2 rs1 f3 rd op) = op := by
  unfold opcodeField rLayout; bv_normalize
@[simp] theorem rd_rLayout : rdField (rLayout f7 rs2 rs1 f3 rd op) = rd := by
  unfold rdField rLayout; bv_normalize
@[simp] theorem funct3_rLayout : funct3Field (rLayout f7 rs2 rs1 f3 rd op) = f3 := by
  unfold funct3Field rLayout; bv_normalize
@[simp] theorem rs1_rLayout : rs1Field (rLayout f7 rs2 rs1 f3 rd op) = rs1 := by
  unfold rs1Field rLayout; bv_normalize
@[simp] theorem rs2_rLayout : rs2Field (rLayout f7 rs2 rs1 f3 rd op) = rs2 := by
  unfold rs2Field rLayout; bv_normalize
@[simp] theorem funct7_rLayout : funct7Field (rLayout f7 rs2 rs1 f3 rd op) = f7 := by
  unfold funct7Field rLayout; bv_normalize

@[simp] theorem opcode_iLayout : opcodeField (iLayout imm rs1 f3 rd op) = op := by
  unfold opcodeField iLayout; bv_normalize
@[simp] theorem rd_iLayout : rdField (iLayout imm rs1 f3 rd op) = rd := by
  unfold rdField iLayout; bv_normalize
@[simp] theorem funct3_iLayout : funct3Field (iLayout imm rs1 f3 rd op) = f3 := by
  unfold funct3Field iLayout; bv_normalize
@[simp] theorem rs1_iLayout : rs1Field (iLayout imm rs1 f3 rd op) = rs1 := by
  unfold rs1Field iLayout; bv_normalize
@[simp] theorem imm_iLayout : immField12 (iLayout imm rs1 f3 rd op) = imm := by
  unfold immField12 iLayout; bv_normalize

@[simp] theorem reg_field_reg (r : Reg) : regOfField (fieldOfReg r) = r := rfl
@[simp] theorem field_reg_field (f : BitVec 5) : fieldOfReg (regOfField f) = f := rfl

theorem immFits_iff (v : Int) : immFits v = true ↔ -2048 ≤ v ∧ v ≤ 2047 := by
  unfold immFits
  rw [Bool.and_eq_true, decide_eq_true_iff, decide_eq_true_iff]

/-- A signed value that fits comes back from its 12-bit field (R85). -/
theorem imm_field_imm {v : Int} (h : immFits v = true) : immOfField (fieldOfImm v) = v := by
  rw [immFits_iff] at h
  unfold immOfField fieldOfImm
  rw [BitVec.toInt_ofInt]
  exact Int.bmod_eq_of_le (by omega) (by omega)

@[simp] theorem field_imm_field (f : BitVec 12) : fieldOfImm (immOfField f) = f := by
  simp [fieldOfImm, immOfField]

/-- Every field read back fits (R28). -/
theorem imm_of_field_fits (f : BitVec 12) : immFits (immOfField f) = true := by
  have h1 := BitVec.le_toInt f
  have h2 := BitVec.toInt_lt (x := f)
  rw [immFits_iff]
  unfold immOfField
  omega

/-! ## The layouts bit by bit -/

theorem getLsbD_rLayout (i : Nat) :
    (rLayout f7 rs2 rs1 f3 rd op).getLsbD i =
      if i < 7 then op.getLsbD i else if i < 12 then rd.getLsbD (i - 7) else if i < 15 then f3.getLsbD (i - 12)
      else if i < 20 then rs1.getLsbD (i - 15) else if i < 25 then rs2.getLsbD (i - 20) else f7.getLsbD (i - 25) := by
  have h := BitVec.getLsbD_append (x := f7 ++ rs2 ++ rs1 ++ f3 ++ rd) (y := op) (i := i)
  rw [BitVec.getLsbD_append (y := rd), BitVec.getLsbD_append (y := f3), BitVec.getLsbD_append (y := rs1),
    BitVec.getLsbD_append (y := rs2)] at h
  refine Eq.trans h ?_
  repeat' split
  all_goals first | rfl | omega

theorem getLsbD_iLayout (i : Nat) :
    (iLayout imm rs1 f3 rd op).getLsbD i =
      if i < 7 then op.getLsbD i else if i < 12 then rd.getLsbD (i - 7) else if i < 15 then f3.getLsbD (i - 12)
      else if i < 20 then rs1.getLsbD (i - 15) else imm.getLsbD (i - 20) := by
  have h := BitVec.getLsbD_append (x := imm ++ rs1 ++ f3 ++ rd) (y := op) (i := i)
  rw [BitVec.getLsbD_append (y := rd), BitVec.getLsbD_append (y := f3), BitVec.getLsbD_append (y := rs1)] at h
  refine Eq.trans h ?_
  repeat' split
  all_goals first | rfl | omega

/-- What the R mask keeps of a word: its key fields (R86). -/
theorem and_rMask (w : Word) : w &&& 0xFE00707F = rLayout (funct7Field w) 0 0 (funct3Field w) 0 (opcodeField w) := by
  apply BitVec.eq_of_getLsbD_eq
  intro i hi
  rw [getLsbD_rLayout]
  unfold funct7Field funct3Field opcodeField
  interval_cases i <;> simp

/-- What the I mask keeps of a word: its key fields (R86). -/
theorem and_iMask (w : Word) : w &&& 0x0000707F = iLayout 0 0 (funct3Field w) 0 (opcodeField w) := by
  apply BitVec.eq_of_getLsbD_eq
  intro i hi
  rw [getLsbD_iLayout]
  unfold funct3Field opcodeField
  interval_cases i <;> simp

/-- A word of the I layout is its fields. -/
theorem iLayout_of_fields (w : Word) :
    iLayout (immField12 w) (rs1Field w) (funct3Field w) (rdField w) (opcodeField w) = w := by
  unfold iLayout immField12 rs1Field funct3Field rdField opcodeField
  bv_normalize

/-- A word of the R layout is its fields. -/
theorem rLayout_of_fields (w : Word) :
    rLayout (funct7Field w) (rs2Field w) (rs1Field w) (funct3Field w) (rdField w) (opcodeField w) = w := by
  unfold rLayout funct7Field rs2Field rs1Field funct3Field rdField opcodeField
  bv_normalize

/-! ## The decoder's key (R86, R95) -/

/-- The key the decoder reads is the mnemonic of the row the word is an instance of. -/
theorem mnemonicOf_iff_instance (w : Word) (m : Mnemonic) :
    mnemonicOf w = some m ↔ ∃ row, encTable m = some row ∧ row.instanceOf w = true := by
  constructor
  · intro h
    unfold mnemonicOf at h
    split at h
    · split at h <;> cases h <;> exact ⟨_, rfl, by simp_all [EncRow.instanceOf]⟩
    · split at h
      · split at h <;> cases h <;> exact ⟨_, rfl, by simp_all [EncRow.instanceOf]⟩
      · split at h
        · split at h <;> cases h <;> exact ⟨_, rfl, by simp_all [EncRow.instanceOf]⟩
        · split at h
          · split at h <;> cases h <;> exact ⟨_, rfl, by simp_all [EncRow.instanceOf]⟩
          · split at h
            · split at h <;> cases h <;> exact ⟨_, rfl, by simp_all [EncRow.instanceOf]⟩
            · cases h
  · rintro ⟨row, hr, hk⟩
    cases m <;> cases hr <;> simp_all [EncRow.instanceOf, mnemonicOf]

/-- No word is an instance of two rows that do not clash (R87: P1 to P3 make decode a function). -/
theorem clash_of_instances {w : Word} {r r' : EncRow} (h : r.instanceOf w = true) (h' : r'.instanceOf w = true) :
    r.clash r' = true := by
  cases r <;> cases r' <;> simp_all [EncRow.instanceOf, EncRow.clash]

@[simp] theorem instrOfFields_mnemonic (m : Mnemonic) (w : Word) : (instrOfFields m w).mnemonic = m := by
  cases m <;> rfl

/-- What a word that decodes gives: its mnemonic's constructor over its fields. -/
theorem decode_eq_ok_iff (w : Word) (i : Instr) :
    decode w = .ok i ↔ ∃ m, mnemonicOf w = some m ∧ instrOfFields m w = i := by
  unfold decode
  cases mnemonicOf w <;> simp

end Sys2Proof
end

