-- ==== Sys2Proof/Laws/State.lean ====
section
/-! SUPPORT. One lemma per field per update of the state: register write, pc write, retire, reset. -/

namespace Sys2Proof.Machine

variable (s : State) (r q : Reg) (v t : Word)

@[simp] theorem setReg_pc : (s.setReg r v).pc = s.pc := rfl
@[simp] theorem setReg_regs : (s.setReg r v).regs = RegFile.write s.regs r v := rfl
@[simp] theorem setReg_F : (s.setReg r v).F = s.F := rfl
@[simp] theorem setReg_D : (s.setReg r v).D = s.D := rfl
@[simp] theorem setReg_X : (s.setReg r v).X = s.X := rfl
@[simp] theorem setReg_M : (s.setReg r v).M = s.M := rfl
@[simp] theorem setReg_W : (s.setReg r v).W = s.W := rfl
@[simp] theorem setReg_cycleCount : (s.setReg r v).cycleCount = s.cycleCount := rfl
@[simp] theorem setReg_fetchCount : (s.setReg r v).fetchCount = s.fetchCount := rfl
@[simp] theorem setReg_done : (s.setReg r v).done = s.done := rfl
@[simp] theorem setReg_fault : (s.setReg r v).fault = s.fault := rfl
@[simp] theorem setReg_imem : (s.setReg r v).imem = s.imem := rfl

@[simp] theorem setPc_pc : (s.setPc t).pc = t := rfl
@[simp] theorem setPc_regs : (s.setPc t).regs = s.regs := rfl
@[simp] theorem setPc_reg : (s.setPc t).reg q = s.reg q := rfl
@[simp] theorem setPc_F : (s.setPc t).F = s.F := rfl
@[simp] theorem setPc_D : (s.setPc t).D = s.D := rfl
@[simp] theorem setPc_X : (s.setPc t).X = s.X := rfl
@[simp] theorem setPc_M : (s.setPc t).M = s.M := rfl
@[simp] theorem setPc_W : (s.setPc t).W = s.W := rfl
@[simp] theorem setPc_cycleCount : (s.setPc t).cycleCount = s.cycleCount := rfl
@[simp] theorem setPc_fetchCount : (s.setPc t).fetchCount = s.fetchCount := rfl
@[simp] theorem setPc_done : (s.setPc t).done = s.done := rfl
@[simp] theorem setPc_fault : (s.setPc t).fault = s.fault := rfl
@[simp] theorem setPc_imem : (s.setPc t).imem = s.imem := rfl

@[simp] theorem retire_pc : (s.retire r v).pc = nextPc s.pc := rfl
@[simp] theorem retire_regs : (s.retire r v).regs = RegFile.write s.regs r v := rfl
@[simp] theorem retire_reg : (s.retire r v).reg q = RegFile.read (RegFile.write s.regs r v) q := rfl

@[simp] theorem slot_F : s.slot .F = s.F := rfl
@[simp] theorem slot_D : s.slot .D = s.D := rfl
@[simp] theorem slot_X : s.slot .X = s.X := rfl
@[simp] theorem slot_M : s.slot .M = s.M := rfl
@[simp] theorem slot_W : s.slot .W = s.W := rfl

@[simp] theorem atReset_imem (m : Memory) : (State.atReset m).imem = m := rfl
@[simp] theorem atReset_pc (m : Memory) : (State.atReset m).pc = m.base := rfl
@[simp] theorem atReset_fault (m : Memory) : (State.atReset m).fault = none := rfl
@[simp] theorem atReset_slot (m : Memory) (st : Stage) : (State.atReset m).slot st = none := by cases st <;> rfl

variable (f : FrontEnd)

@[simp] theorem complete_regs : (complete s f).regs = writeBackLogic s.regs s.M := rfl
@[simp] theorem complete_pc : (complete s f).pc = f.pc := rfl
@[simp] theorem complete_F : (complete s f).F = f.F := rfl
@[simp] theorem complete_D : (complete s f).D = f.D.map (decodeLogic s.regs) := rfl
@[simp] theorem complete_X : (complete s f).X = f.X.map executeLogic := rfl
@[simp] theorem complete_M : (complete s f).M = s.X := by simp [complete, show memoryLogic = id from rfl]
@[simp] theorem complete_W : (complete s f).W = s.M := rfl
@[simp] theorem complete_cycleCount : (complete s f).cycleCount = s.cycleCount + 1 := rfl
@[simp] theorem complete_fetchCount : (complete s f).fetchCount = f.fetchCount := rfl
@[simp] theorem complete_fault : (complete s f).fault = f.fault := rfl
@[simp] theorem complete_imem : (complete s f).imem = s.imem := rfl
@[simp] theorem complete_done : (complete s f).done = allEmpty f.F f.D f.X s.X s.M := rfl

end Sys2Proof.Machine
end

