-- ==== Sys2Proof/Laws/Ops.lean ====
section
/-! SUPPORT. What the register-file and memory operations do, once each (10_state.md R21, R22; 20_memory.md R60). -/

namespace Sys2Proof.Machine

@[simp] theorem read_zero (f : RegFile) : RegFile.read f 0 = 0 := rfl

theorem read_write (f : RegFile) (r q : Reg) (v : Word) :
    RegFile.read (RegFile.write f r v) q = if q = r ∧ r ≠ 0 then v else RegFile.read f q := by
  unfold RegFile.write
  by_cases hr : r = 0
  · simp [hr]
  · by_cases hq : q = r
    · subst hq; simp [RegFile.read, hr]
    · have hne : (r : Nat) ≠ (q : Nat) := fun h => hq (Fin.ext h.symm)
      simp [RegFile.read, hr, hq, Vector.getElem_set_ne, hne]

@[simp] theorem write_zero (f : RegFile) (v : Word) : RegFile.write f 0 v = f := rfl

/-- A register write leaves the storage of register 0 alone. -/
theorem write_storage_zero (f : RegFile) (r : Reg) (v : Word) : (RegFile.write f r v)[0] = f[0] := by
  unfold RegFile.write
  split
  · rfl
  · next h =>
    have hne : (r : Nat) ≠ 0 := fun h0 => h (Fin.ext h0)
    simp [Vector.getElem_set_ne, hne]

/-- The register file changes in at most the written register: the shape frames use. -/
theorem retire_writesOnly (s : State) (rd : Reg) (v : Word) : WritesOnly s (s.retire rd v) rd v := by
  refine ⟨fun h => ?_, ?_, fun r h => ?_, fun h => ?_⟩
  · simp [read_write, h]
  · simp
  · simp [State.reg, read_write, h]
  · subst h; rfl

/-- IMem is defined exactly at the addresses PROGRAM_BASE + 4k with k < N. -/
theorem memory_read_eq_some (m : Memory) (a : Nat) (w : Word) :
    m.read a = some w ↔ ∃ k, a = m.base.toNat + 4 * k ∧ m.words[k]? = some w := by
  unfold Memory.read Config.ibytes
  constructor
  · intro h
    split at h
    · next hc => exact ⟨_, by omega, h⟩
    · cases h
  · rintro ⟨k, rfl, hk⟩
    have h1 : m.base.toNat + 4 * k - m.base.toNat = 4 * k := by omega
    simp [h1, hk]

/-- The program region as two comparisons (R61). -/
theorem memory_inRange_iff (m : Memory) (a : Nat) :
    m.inRange a = true ↔ m.base.toNat ≤ a ∧ a < m.base.toNat + 4 * m.words.length := by
  unfold Memory.inRange
  rw [Bool.and_eq_true, decide_eq_true_iff, decide_eq_true_iff]
  rfl

/-- A loaded memory in a usable form (R9, R252). -/
theorem memory_wf_iff (m : Memory) :
    m.wf = true ↔ m.base.toNat % 4 = 0 ∧ m.base.toNat + 4 * m.words.length ≤ 2 ^ 32 ∧
      ∀ w ∈ m.words, (mnemonicOf w).isSome = true := by
  unfold Memory.wf Memory.limit Config.ibytes Config.addressSpace
  rw [Bool.and_eq_true, Bool.and_eq_true, decide_eq_true_iff, decide_eq_true_iff, List.all_eq_true, and_assoc]

/-- Whether a word decodes is whether its key has a table entry. -/
theorem decode_isOk_iff (w : Word) : (∃ i, decode w = .ok i) ↔ (mnemonicOf w).isSome = true := by
  unfold decode
  cases mnemonicOf w <;> simp

/-- Fetch finds an instruction exactly where an aligned program word decodes to it. -/
theorem fetch_eq_instr {m : Memory} {pc : Word} {i : Instr} (h : m.fetch pc = .instr i) :
    pc.toNat % 4 = 0 ∧ ∃ k w, m.words[k]? = some w ∧ pc.toNat = m.base.toNat + 4 * k ∧ decode w = .ok i := by
  unfold Memory.fetch Config.ibytes at h
  split at h
  · split at h
    · next hal =>
      split at h
      · next w hw =>
        obtain ⟨k, hk, hkw⟩ := (memory_read_eq_some m _ w).1 hw
        split at h
        · next j hj => cases h; exact ⟨hal, k, w, hkw, hk, hj⟩
        · cases h
      · cases h
    · cases h
  · cases h

/-- A pc outside the program region: Fetch finds nothing (R134). -/
theorem fetch_of_outside {m : Memory} {pc : Word}
    (h : ¬ (m.base.toNat ≤ pc.toNat ∧ pc.toNat < m.base.toNat + 4 * m.words.length)) : m.fetch pc = .outside := by
  rw [← memory_inRange_iff] at h
  simp [Memory.fetch, h]

/-- A pc inside the program region and no multiple of 4: Fetch faults (R63). -/
theorem fetch_of_misaligned {m : Memory} {pc : Word} (h1 : m.base.toNat ≤ pc.toNat)
    (h2 : pc.toNat < m.base.toNat + 4 * m.words.length) (h4 : pc.toNat % 4 ≠ 0) : m.fetch pc = .misaligned := by
  have h := (memory_inRange_iff m _).2 ⟨h1, h2⟩
  simp [Memory.fetch, h, Config.ibytes, h4]

/-- Where Fetch faults: inside the program region, at no multiple of 4. -/
theorem fetch_eq_misaligned {m : Memory} {pc : Word} (h : m.fetch pc = .misaligned) :
    m.base.toNat ≤ pc.toNat ∧ pc.toNat < m.base.toNat + 4 * m.words.length ∧ pc.toNat % 4 ≠ 0 := by
  unfold Memory.fetch at h
  split at h
  · next h1 =>
    obtain ⟨a, b⟩ := (memory_inRange_iff m _).1 h1
    split at h
    · split at h
      · split at h <;> cases h
      · cases h
    · next h2 => exact ⟨a, b, h2⟩
  · cases h

/-- The next sequential address of an aligned address is aligned (R26). -/
theorem nextPc_aligned {p : Word} (h : p.toNat % 4 = 0) : (nextPc p).toNat % 4 = 0 := by
  simp [nextPc, Config.ibytes, BitVec.toNat_add]
  omega

/-- A branch target is aligned when the branch's own address is (R201, R205). -/
theorem branchTarget_aligned {p : Word} (off : Int) (h : p.toNat % 4 = 0) : (branchTarget p off).toNat % 4 = 0 := by
  simp only [branchTarget, BitVec.toNat_add, BitVec.toNat_ofInt]
  omega

/-- In a loaded memory Fetch never finds a word that does not decode (R134). -/
theorem fetch_ne_illegal {m : Memory} (hm : m.wf = true) (pc w : Word) : m.fetch pc ≠ .illegal w := by
  intro h
  unfold Memory.fetch at h
  split at h
  · split at h
    · split at h
      · next v hv =>
        obtain ⟨k, -, hk⟩ := (memory_read_eq_some m _ v).1 hv
        obtain ⟨i, hi⟩ := (decode_isOk_iff v).2 (((memory_wf_iff m).1 hm).2.2 v (List.mem_of_getElem? hk))
        simp [hi] at h
      · cases h
    · cases h
  · cases h

/-- A program passes load's check exactly when every word decodes. -/
theorem firstIllegal_eq_none (ws : List Word) (k : Nat) :
    firstIllegal k ws = none ↔ ∀ w ∈ ws, (mnemonicOf w).isSome = true := by
  induction ws generalizing k with
  | nil => simp [firstIllegal]
  | cons w ws ih =>
    simp only [firstIllegal, List.mem_cons, forall_eq_or_imp, ← decode_isOk_iff w]
    cases hd : decode w <;> simp [ih]

/-- Every operation that places a program keeps the memory's form; `advance` never changes the memory. -/
theorem load_keeps_wf {ws : List Word} {s t : State} (hb : s.imem.base.toNat % 4 = 0) (h : load ws s = .ok t) :
    t.imem.wf = true := by
  unfold load at h
  split at h
  · cases h
  · next hfit =>
    split at h
    · cases h
    · next hok =>
      cases h
      exact (memory_wf_iff _).2 ⟨hb, Nat.not_lt.1 hfit, (firstIllegal_eq_none ws 0).1 hok⟩

theorem reset_memory_wf : State.reset.imem.wf = true := by decide

end Sys2Proof.Machine
end

