-- ==== Sys2Proof/Laws/Engine.lean ====
section
/-! SUPPORT. Everything an advance can do, said once (40_pipeline_engine.md R130 to R136, R148). -/

namespace Sys2Proof.Machine

theorem step_of_fault {s : State} {f : Fault} (h : s.fault = some f) : step s = .fault f := by
  simp [step, advance, h]

theorem step_of_frontEnd {s : State} {f : FrontEnd} (h : s.fault = none) (hf : frontEnd s = .ok f) :
    step s = .next (complete s f) := by
  simp [step, advance, h, hf]

/-- The inversion of a step: it starts without a fault and completes the front end its request decides. -/
theorem step_eq_next {s t : State} (h : step s = .next t) :
    s.fault = none ∧ ∃ f, frontEnd s = .ok f ∧ t = complete s f := by
  unfold step advance at h
  split at h
  · cases h
  · next hn =>
    split at h
    · next f hf => cases h; exact ⟨hn, f, hf, rfl⟩
    · cases h

/-- The five front ends: redirect, stall, and the three fetch outcomes of a state without a request. -/
theorem frontEnd_cases {s : State} {f : FrontEnd} (h : frontEnd s = .ok f) :
    (∃ t, ctl s = .branch t ∧ f = frontRedirect s t) ∨
    (ctl s = .stall ∧ f = frontStall s) ∨
    (ctl s = .proceed ∧ ∃ i, s.imem.fetch s.pc = .instr i ∧ f = frontFetch s i) ∨
    (ctl s = .proceed ∧ s.imem.fetch s.pc = .outside ∧ f = frontDrain s) ∨
    (ctl s = .proceed ∧ s.imem.fetch s.pc = .misaligned ∧ f = takeFetchMisaligned (frontDrain s)) := by
  unfold frontEnd at h
  split at h
  · next t ht => cases h; exact .inl ⟨t, ht, rfl⟩
  · next hs => cases h; exact .inr (.inl ⟨hs, rfl⟩)
  · next hp =>
    split at h
    · next i hi => cases h; exact .inr (.inr (.inl ⟨hp, i, hi, rfl⟩))
    · next ho => cases h; exact .inr (.inr (.inr (.inl ⟨hp, ho, rfl⟩)))
    · next hm => cases h; exact .inr (.inr (.inr (.inr ⟨hp, hm, rfl⟩)))
    · cases h

/-- A run takes its first step, whatever it answers. -/
theorem run_succ (M : Host.Core) (k : Nat) (s : M.State) :
    M.run (k + 1) s =
      match M.step s with
      | .next u => M.run k u
      | .fault r => .fault r
      | .refused r => .refused r := rfl

/-- A run goes on from the state its first step answers. -/
theorem core_run_succ {s t : State} (k : Nat) (h : step s = .next t) : core.run (k + 1) s = core.run k t := by
  refine (run_succ core k s).trans ?_
  rw [show core.step s = .next t from h]

theorem ctl_eq_branch {s : State} {t : Word} : ctl s = .branch t ↔ ∃ r, s.X = some r ∧ transfer r = some t := by
  unfold ctl
  cases hX : s.X with
  | none => simp; split <;> simp
  | some r =>
    cases ht : transfer r with
    | none => simp [ht]; split <;> simp
    | some u => simp [ht]

theorem ctl_eq_stall {s : State} : ctl s = .stall ↔ s.X.bind transfer = none ∧ hazard s = true := by
  unfold ctl
  cases h : s.X.bind transfer with
  | none => cases hh : hazard s <;> simp
  | some t => simp

theorem ctl_eq_proceed {s : State} : ctl s = .proceed ↔ s.X.bind transfer = none ∧ hazard s = false := by
  unfold ctl
  cases h : s.X.bind transfer with
  | none => cases hh : hazard s <;> simp
  | some t => simp

theorem producesFor_iff (p c : InFlight) :
    producesFor p c = true ↔ HoldsProducer (some p) c := by
  unfold producesFor HoldsProducer
  cases hd : dest p.instr <;> simp [hd]

theorem hazard_iff (s : State) :
    hazard s = true ↔ ∃ c, s.D = some c ∧ (HoldsProducer s.X c ∨ HoldsProducer s.M c ∨ HoldsProducer s.W c) := by
  have key : ∀ (slot : Slot) (c : InFlight), slot.any (fun p => producesFor p c) = true ↔ HoldsProducer slot c := by
    intro slot c
    cases slot with
    | none => simp [HoldsProducer]
    | some p => simpa using producesFor_iff p c
  unfold hazard
  cases hD : s.D with
  | none => simp
  | some c => simp [key]

theorem step_imem {s t : State} (h : step s = .next t) : t.imem = s.imem := by
  obtain ⟨-, f, -, rfl⟩ := step_eq_next h
  rfl

/-- Over a loaded memory every control request has a front end: the fetch of an illegal word does not occur. -/
theorem frontEnd_of_wf {s : State} (hm : s.imem.wf = true) : ∃ f, frontEnd s = .ok f := by
  unfold frontEnd
  split
  · exact ⟨_, rfl⟩
  · exact ⟨_, rfl⟩
  · split
    · exact ⟨_, rfl⟩
    · exact ⟨_, rfl⟩
    · exact ⟨_, rfl⟩
    · next w hw => exact absurd hw (fetch_ne_illegal hm _ w)

/-- WriteBack: the register file after a record enters W. -/
theorem writeBackLogic_read (regs : RegFile) (w : Slot) (q : Reg) :
    RegFile.read (writeBackLogic regs w) q =
      match w.bind writeBackOf with
      | some (d, v) => if q = d ∧ d ≠ 0 then v else RegFile.read regs q
      | none => RegFile.read regs q := by
  unfold writeBackLogic
  cases w.bind writeBackOf with
  | none => rfl
  | some p => exact read_write regs p.1 q p.2

@[simp] theorem executeLogic_instr (r : InFlight) : (executeLogic r).instr = r.instr := by
  unfold executeLogic; repeat (first | rfl | split)
@[simp] theorem executeLogic_ipc (r : InFlight) : (executeLogic r).ipc = r.ipc := by
  unfold executeLogic; repeat (first | rfl | split)
@[simp] theorem executeLogic_op1 (r : InFlight) : (executeLogic r).op1 = r.op1 := by
  unfold executeLogic; repeat (first | rfl | split)
@[simp] theorem executeLogic_op2 (r : InFlight) : (executeLogic r).op2 = r.op2 := by
  unfold executeLogic; repeat (first | rfl | split)
@[simp] theorem decodeLogic_instr (f : RegFile) (r : InFlight) : (decodeLogic f r).instr = r.instr := rfl
@[simp] theorem decodeLogic_ipc (f : RegFile) (r : InFlight) : (decodeLogic f r).ipc = r.ipc := rfl
@[simp] theorem decodeLogic_op1 (f : RegFile) (r : InFlight) : (decodeLogic f r).op1 = some (operand1 f r.instr) := rfl
@[simp] theorem decodeLogic_op2 (f : RegFile) (r : InFlight) : (decodeLogic f r).op2 = operand2 f r.instr := rfl

/-- The Decode logic overwrites both operand fields, so running it again forgets what they held (R140). -/
theorem decodeLogic_forgets (f : RegFile) (r : InFlight) (a b : Option Word) :
    decodeLogic f { r with op1 := a, op2 := b } = decodeLogic f r := rfl

end Sys2Proof.Machine
end

