-- ==== Sys2Proof/Laws/PerInstr.lean ====
section
/-! SUPPORT. The statement made per instruction: a well-formed instruction encodes to a word of its own row of
ENC_TABLE, whose key the decoder reads back as its mnemonic (30_encoding.md R86, R92, R95). -/

namespace Sys2Proof.Laws.EncodesInItsRow

/-- A well-formed instruction encodes, and its word's key is read back as its mnemonic. -/
def Statement (i : Instr) : Prop := i.wf = true → ∃ w, encode i = .ok w ∧ mnemonicOf w = some i.mnemonic

/-- What encode answers for a well-formed instruction with a row. -/
theorem encode_of_wf {i : Instr} {row : EncRow} (hrow : encTable i.mnemonic = some row) (h : i.wf = true) :
    encode i = .ok (row.layout i) := by
  simp [encode, encodeWith, hrow, h]

theorem add (rd rs1 rs2 : Reg) : Statement (.add rd rs1 rs2) :=
  fun h => ⟨_, encode_of_wf rfl h, by simp [EncRow.layout, mnemonicOf, Instr.mnemonic]⟩

theorem sub (rd rs1 rs2 : Reg) : Statement (.sub rd rs1 rs2) :=
  fun h => ⟨_, encode_of_wf rfl h, by simp [EncRow.layout, mnemonicOf, Instr.mnemonic]⟩

theorem and (rd rs1 rs2 : Reg) : Statement (.and rd rs1 rs2) :=
  fun h => ⟨_, encode_of_wf rfl h, by simp [EncRow.layout, mnemonicOf, Instr.mnemonic]⟩

theorem or (rd rs1 rs2 : Reg) : Statement (.or rd rs1 rs2) :=
  fun h => ⟨_, encode_of_wf rfl h, by simp [EncRow.layout, mnemonicOf, Instr.mnemonic]⟩

theorem xor (rd rs1 rs2 : Reg) : Statement (.xor rd rs1 rs2) :=
  fun h => ⟨_, encode_of_wf rfl h, by simp [EncRow.layout, mnemonicOf, Instr.mnemonic]⟩

theorem nor (rd rs1 rs2 : Reg) : Statement (.nor rd rs1 rs2) :=
  fun h => ⟨_, encode_of_wf rfl h, by simp [EncRow.layout, mnemonicOf, Instr.mnemonic]⟩

theorem slt (rd rs1 rs2 : Reg) : Statement (.slt rd rs1 rs2) :=
  fun h => ⟨_, encode_of_wf rfl h, by simp [EncRow.layout, mnemonicOf, Instr.mnemonic]⟩

theorem jr (rs1 : Reg) : Statement (.jr rs1) :=
  fun h => ⟨_, encode_of_wf rfl h, by simp [EncRow.layout, mnemonicOf, Instr.mnemonic]⟩

theorem addi (rd rs1 : Reg) (imm : Int) : Statement (.addi rd rs1 imm) :=
  fun h => ⟨_, encode_of_wf rfl h, by simp [EncRow.layout, mnemonicOf, Instr.mnemonic]⟩

theorem andi (rd rs1 : Reg) (imm : Int) : Statement (.andi rd rs1 imm) :=
  fun h => ⟨_, encode_of_wf rfl h, by simp [EncRow.layout, mnemonicOf, Instr.mnemonic]⟩

theorem ori (rd rs1 : Reg) (imm : Int) : Statement (.ori rd rs1 imm) :=
  fun h => ⟨_, encode_of_wf rfl h, by simp [EncRow.layout, mnemonicOf, Instr.mnemonic]⟩

theorem xori (rd rs1 : Reg) (imm : Int) : Statement (.xori rd rs1 imm) :=
  fun h => ⟨_, encode_of_wf rfl h, by simp [EncRow.layout, mnemonicOf, Instr.mnemonic]⟩

theorem beq (rs1 rs2 : Reg) (off : Int) : Statement (.beq rs1 rs2 off) :=
  fun h => ⟨_, encode_of_wf rfl h, by simp [EncRow.layout, mnemonicOf, Instr.mnemonic]⟩

theorem bne (rs1 rs2 : Reg) (off : Int) : Statement (.bne rs1 rs2 off) :=
  fun h => ⟨_, encode_of_wf rfl h, by simp [EncRow.layout, mnemonicOf, Instr.mnemonic]⟩

theorem lw (rd rs1 : Reg) (imm : Int) : Statement (.lw rd rs1 imm) :=
  fun h => ⟨_, encode_of_wf rfl h, by simp [EncRow.layout, mnemonicOf, Instr.mnemonic]⟩

theorem sw (rs2 rs1 : Reg) (imm : Int) : Statement (.sw rs2 rs1 imm) :=
  fun h => ⟨_, encode_of_wf rfl h, by simp [EncRow.layout, mnemonicOf, Instr.mnemonic]⟩

end Sys2Proof.Laws.EncodesInItsRow
end

