-- ==== Sys2Proof/Laws/Simulation.lean ====
section
/-! SUPPORT. How the pipeline follows the sequential reading (40_pipeline_engine.md R131, R132, R136, R140, R150, R154):
the relation `Sim` between a pipeline state and the sequential state its MemoryAccess slot has reached, kept by every
advance. A record in M is the next to commit; X, D, F follow it in program order, or are a wrong path behind a taken
transfer in X. -/

namespace Sys2Proof.Machine

/-- The sequential state after the instruction of a slot, by its stages in turn. -/
def after (e : State) : Slot → State
  | none => e
  | some r => passThrough r.instr e

/-- The record that the instruction at the pc of `e`, read and executed in `e`, leaves Execute with. -/
def Correct (m : Memory) (e : State) (r : InFlight) : Prop :=
  m.fetch e.pc = .instr r.instr ∧ r = executeLogic (decodeLogic e.regs (fetchedRecord r.instr e.pc))

/-- The address of the oldest instruction that has not reached X. -/
def entry (s : State) : Word :=
  match s.D, s.F with
  | some d, _ => d.ipc
  | none, some f => f.ipc
  | none, none => s.pc

/-- The pipeline state `s` over the memory `m`, with nothing committed beyond the sequential state `e`. -/
structure Sim (m : Memory) (s e : State) : Prop where
  imem : s.imem = m
  nofault : s.fault = none
  eimem : e.imem = m
  regs : e.regs = s.regs
  mOk : ∀ r, s.M = some r → Correct m e r
  xOk : ∀ r, s.X = some r → Correct m (after e s.M) r
  dOk : ∀ d, s.D = some d → m.fetch d.ipc = .instr d.instr ∧
    ∃ old, d = decodeLogic old (fetchedRecord d.instr d.ipc) ∧ s.regs = writeBackLogic old s.W
  fOk : ∀ f, s.F = some f → f = fetchedRecord f.instr f.ipc ∧ m.fetch f.ipc = .instr f.instr ∧ s.pc = nextPc f.ipc
  dfOk : ∀ d f, s.D = some d → s.F = some f → f.ipc = nextPc d.ipc
  dnOk : ∀ d, s.D = some d → s.F = none → s.pc = nextPc d.ipc
  entryOk : s.X.bind transfer = none → entry s = (after (after e s.M) s.X).pc
  misalignedOk : m.fetch s.pc = .misaligned → s.M.isSome = true

@[simp] theorem after_none (e : State) : after e none = e := rfl
@[simp] theorem after_some (e : State) (r : InFlight) : after e (some r) = passThrough r.instr e := rfl
@[simp] theorem after_imem (e : State) (slot : Slot) : (after e slot).imem = e.imem := by cases slot <;> rfl

theorem Correct.commit_regs {m : Memory} {e : State} {r : InFlight} (h : Correct m e r) :
    writeBackLogic e.regs (some r) = (passThrough r.instr e).regs := by
  obtain ⟨_, h2⟩ := h
  conv_lhs => rw [h2]
  rfl

theorem Correct.commit_pc {m : Memory} {e : State} {r : InFlight} (h : Correct m e r) :
    (passThrough r.instr e).pc = (transfer r).getD (nextPc e.pc) := by
  obtain ⟨_, h2⟩ := h
  conv_rhs => rw [h2]
  rfl

theorem Correct.ipc_eq {m : Memory} {e : State} {r : InFlight} (h : Correct m e r) : r.ipc = e.pc := by
  obtain ⟨_, h2⟩ := h
  rw [h2]
  simp [fetchedRecord]

theorem Correct.aligned {m : Memory} {e : State} {r : InFlight} (h : Correct m e r) : r.ipc.toNat % 4 = 0 := by
  rw [h.ipc_eq]
  exact (fetch_eq_instr h.1).1

/-- A WriteBack that is no producer for `c` changes no source of `c`. -/
theorem writeBack_read {old : RegFile} {slot : Slot} {c : InFlight} (hp : ¬ HoldsProducer slot c) {q : Reg}
    (hq : q ∈ sources c.instr) : RegFile.read (writeBackLogic old slot) q = RegFile.read old q := by
  cases slot with
  | none => rfl
  | some r =>
    rw [writeBackLogic_read]
    simp only [Option.bind_some, writeBackOf]
    split
    · next d v hdv =>
      split at hdv
      · next hw =>
        split at hdv
        · next d' v' hd hv =>
          cases hdv
          by_cases h0 : q = d ∧ d ≠ 0
          · exact absurd ⟨r, d, rfl, hw, hd, h0.2, h0.1 ▸ hq⟩ hp
          · simp [h0]
        · cases hdv
      · cases hdv
    · rfl

/-- An instruction that is no producer for `c` changes no source of `c`. -/
theorem after_read {m : Memory} {e : State} {slot : Slot} {c : InFlight} (hc : ∀ r, slot = some r → Correct m e r)
    (hp : ¬ HoldsProducer slot c) {q : Reg} (hq : q ∈ sources c.instr) :
    RegFile.read (after e slot).regs q = RegFile.read e.regs q := by
  cases slot with
  | none => rfl
  | some r =>
    rw [after_some, ← (hc r rfl).commit_regs]
    exact writeBack_read hp hq

/-- Decode reads nothing but the sources (R139). -/
theorem decodeLogic_congr {a b : RegFile} {r : InFlight}
    (h : ∀ q ∈ sources r.instr, RegFile.read a q = RegFile.read b q) : decodeLogic a r = decodeLogic b r := by
  have h1 : operand1 a r.instr = operand1 b r.instr := by
    cases hi : r.instr <;> simp_all [operand1, sources]
  have h2 : operand2 a r.instr = operand2 b r.instr := by
    cases hi : r.instr <;> simp_all [operand2, sources]
  rw [decodeLogic, decodeLogic, h1, h2]

theorem sim_atReset {m : Memory} (hb : m.base.toNat % 4 = 0) : Sim m (State.atReset m) (State.atReset m) where
  imem := rfl
  nofault := rfl
  eimem := rfl
  regs := rfl
  mOk := by intro r h; cases h
  xOk := by intro r h; cases h
  dOk := by intro r h; cases h
  fOk := by intro r h; cases h
  dfOk := by intro r f h; cases h
  dnOk := by intro r h; cases h
  entryOk := fun _ => rfl
  misalignedOk := fun h => absurd hb (fetch_eq_misaligned h).2.2

/-- Every advance keeps the relation, the record in M being the one that commits; or it faults where the sequential
reading does. -/
theorem sim_step {m : Memory} {s e t : State} (h : Sim m s e) (hs : step s = .next t) :
    (t.fault = none ∧ Sim m t (after e s.M)) ∨
    (t.fault = some (.fetchMisaligned (after e s.M).pc) ∧ m.fetch (after e s.M).pc = .misaligned ∧
      t.regs = (after e s.M).regs ∧ t.pc = (after e s.M).pc ∧ t.done = false) := by
  obtain ⟨-, f, hfe, rfl⟩ := step_eq_next hs
  have hregs : (after e s.M).regs = writeBackLogic s.regs s.M := by
    rw [← h.regs]
    cases hM : s.M with
    | none => rfl
    | some r => exact (h.mOk r hM).commit_regs.symm
  have fal : ∀ f, s.F = some f → s.pc.toNat % 4 = 0 := by
    intro f hF
    obtain ⟨-, h2, h3⟩ := h.fOk f hF
    rw [h3]
    exact nextPc_aligned (fetch_eq_instr h2).1
  have dal : ∀ d, s.D = some d → s.pc.toNat % 4 = 0 := by
    intro d hD
    cases hF : s.F with
    | some f => exact fal f hF
    | none =>
      rw [h.dnOk d hD hF]
      exact nextPc_aligned (fetch_eq_instr (h.dOk d hD).1).1
  have xentry : ∀ r, s.X = some r → transfer r = none → (after (after e s.M) s.X).pc = nextPc r.ipc := by
    intro r hX ht
    rw [hX, after_some]
    rw [(h.xOk r hX).commit_pc, ht, (h.xOk r hX).ipc_eq]; rfl
  rcases frontEnd_cases hfe with ⟨a, hc, rfl⟩ | ⟨hc, rfl⟩ | ⟨hc, i, hfi, rfl⟩ | ⟨hc, hm, rfl⟩ | ⟨hc, hm, rfl⟩
  · -- redirect
    left
    obtain ⟨r, hX, ht⟩ := ctl_eq_branch.1 hc
    refine ⟨rfl, ?_⟩
    constructor
    · exact h.imem
    · rfl
    · simpa using h.eimem
    · exact hregs
    · intro q hq; simp at hq; exact h.xOk q hq
    · intro q hq; simp [frontRedirect] at hq
    · intro q hq; simp [frontRedirect] at hq
    · intro q hq; simp [frontRedirect] at hq
    · intro q _ hq; simp [frontRedirect] at hq
    · intro q hq; simp [frontRedirect] at hq
    · intro _
      simp only [complete_M, complete_X]
      rw [show (frontRedirect s a).X = none from rfl, Option.map_none, after_none]
      refine Eq.trans (b := a) rfl ?_
      rw [hX, after_some, (h.xOk r hX).commit_pc, ht]
      rfl
    · intro _; simp [hX]
  · -- stall
    left
    obtain ⟨hXt, hz⟩ := ctl_eq_stall.1 hc
    refine ⟨rfl, ?_⟩
    constructor
    · exact h.imem
    · rfl
    · simpa using h.eimem
    · exact hregs
    · intro q hq; simp at hq; exact h.xOk q hq
    · intro q hq; simp [frontStall] at hq
    · intro q hq; simp [frontStall] at hq
      obtain ⟨d, hd, rfl⟩ := hq
      obtain ⟨h1, rp, h2, h3⟩ := h.dOk d hd
      refine ⟨h1, s.regs, ?_, rfl⟩
      conv_lhs => rw [h2]
      rfl
    · intro q hq; exact h.fOk q hq
    · intro q f hq hf; simp [frontStall] at hq hf
      obtain ⟨d, hd, rfl⟩ := hq
      exact h.dfOk d f hd hf
    · intro q hq hf; simp [frontStall] at hq hf
      obtain ⟨d, hd, rfl⟩ := hq
      exact h.dnOk d hd hf
    · intro _
      have := h.entryOk hXt
      simp only [complete_M, complete_X]
      rw [show (frontStall s).X = none from rfl, Option.map_none, after_none, ← this]
      cases hD : s.D with
      | some d => simp [entry, hD, frontStall]
      | none => cases hF : s.F <;> simp [entry, hD, hF, frontStall]
    · intro hm
      obtain ⟨d, hD, -⟩ := (hazard_iff s).1 hz
      exact absurd (dal d hD) (fetch_eq_misaligned hm).2.2
  all_goals
    obtain ⟨hXt, hz⟩ := ctl_eq_proceed.1 hc
    have hent := h.entryOk hXt
    -- D's record executed is Correct at e2
    have hD2 : ∀ d, s.D = some d → Correct m (after (after e s.M) s.X) (executeLogic d) := by
      intro d hd
      obtain ⟨h1, rp, h2, h3⟩ := h.dOk d hd
      have hipc : d.ipc = (after (after e s.M) s.X).pc := by rw [← hent]; simp [entry, hd]
      have nop : ¬ (HoldsProducer s.X d ∨ HoldsProducer s.M d ∨ HoldsProducer s.W d) := by
        intro hh; rw [(hazard_iff s).2 ⟨d, hd, hh⟩] at hz; cases hz
      push Not at nop
      have hcong : decodeLogic rp (fetchedRecord d.instr d.ipc) =
          decodeLogic (after (after e s.M) s.X).regs (fetchedRecord d.instr d.ipc) := by
        refine decodeLogic_congr fun q hq => ?_
        rw [after_read h.xOk nop.1 hq, after_read h.mOk nop.2.1 hq, h.regs, h3, writeBack_read nop.2.2 hq]
      refine ⟨by rw [← hipc]; simpa using h1, ?_⟩
      rw [← hipc]
      conv_lhs => rw [h2, hcong]
      simp
    have hFd : ∀ q, s.F.map (decodeLogic s.regs) = some q → m.fetch q.ipc = .instr q.instr ∧
        ∃ rp, q = decodeLogic rp (fetchedRecord q.instr q.ipc) ∧
          writeBackLogic s.regs s.M = writeBackLogic rp s.M := by
      intro q hq
      simp at hq
      obtain ⟨f, hf, rfl⟩ := hq
      obtain ⟨h1, h2, h3⟩ := h.fOk f hf
      refine ⟨h2, s.regs, ?_, rfl⟩
      conv_lhs => rw [h1]
      rfl
    have hpcF : ∀ q, s.F.map (decodeLogic s.regs) = some q → s.pc = nextPc q.ipc := by
      intro q hq
      simp at hq
      obtain ⟨f, hf, rfl⟩ := hq
      exact (h.fOk f hf).2.2
    -- entry of the new front
    have hnew : (s.D.map executeLogic).bind transfer = none →
        (match s.F with | some f => f.ipc | none => s.pc) =
          (after (after (after e s.M) s.X) (s.D.map executeLogic)).pc := by
      intro hnt
      cases hD : s.D with
      | none =>
        rw [Option.map_none, after_none]
        rw [← hent]
        cases hF : s.F <;> simp [entry, hD, hF]
      | some d =>
        rw [hD] at hnt
        simp only [Option.map_some, Option.bind_some] at hnt
        rw [Option.map_some, after_some]
        rw [(hD2 d hD).commit_pc, hnt]
        have := (hD2 d hD).ipc_eq
        rw [← this]
        cases hF : s.F with
        | some f => simpa using h.dfOk d f hD hF
        | none => simpa using h.dnOk d hD hF
  · -- fetch
    left
    refine ⟨rfl, ?_⟩
    constructor
    · exact h.imem
    · rfl
    · simpa using h.eimem
    · exact hregs
    · intro q hq; simp at hq; exact h.xOk q hq
    · intro q hq; simp [frontFetch] at hq
      obtain ⟨d, hd, rfl⟩ := hq
      simpa using hD2 d hd
    · intro q hq; exact hFd q hq
    · intro q hq; simp [frontFetch] at hq; subst hq
      exact ⟨rfl, h.imem ▸ hfi, rfl⟩
    · intro q f hq hf; simp [frontFetch] at hf; subst hf
      exact hpcF q hq
    · intro q hq hf; simp [frontFetch] at hf
    · intro hnt
      have := hnew hnt
      simp only [complete_M, complete_X]
      refine Eq.trans ?_ this
      cases hF : s.F <;> simp [entry, frontFetch, hF, fetchedRecord]
    · intro hm
      exact absurd (nextPc_aligned (fetch_eq_instr hfi).1) (fetch_eq_misaligned hm).2.2
  · -- drain
    left
    refine ⟨rfl, ?_⟩
    constructor
    · exact h.imem
    · rfl
    · simpa using h.eimem
    · exact hregs
    · intro q hq; simp at hq; exact h.xOk q hq
    · intro q hq; simp [frontDrain] at hq
      obtain ⟨d, hd, rfl⟩ := hq
      simpa using hD2 d hd
    · intro q hq; exact hFd q hq
    · intro q hq; simp [frontDrain] at hq
    · intro q f hq hf; simp [frontDrain] at hf
    · intro q hq hf; exact hpcF q hq
    · intro hnt
      have := hnew hnt
      simp only [complete_M, complete_X]
      refine Eq.trans ?_ this
      cases hF : s.F <;> simp [entry, frontDrain, hF]
    · intro h'
      rw [h.imem] at hm
      exact absurd (hm.symm.trans h') (by simp)
  · -- misaligned
    right
    rw [h.imem] at hm
    have h4 := (fetch_eq_misaligned hm).2.2
    have hF : s.F = none := Option.eq_none_iff_forall_ne_some.2 fun f hF => h4 (fal f hF)
    have hD : s.D = none := Option.eq_none_iff_forall_ne_some.2 fun d hD => h4 (dal d hD)
    have hent' : s.pc = (after (after e s.M) s.X).pc := by rw [← hent]; simp [entry, hD, hF]
    have hX : s.X = none := by
      cases hX : s.X with
      | none => rfl
      | some x =>
        rw [hX] at hXt
        have := xentry x hX (by simpa using hXt)
        rw [← hent'] at this
        exact absurd (by rw [this]; exact nextPc_aligned (h.xOk x hX).aligned) h4
    rw [hX, after_none] at hent'
    obtain ⟨r, hM⟩ := Option.isSome_iff_exists.1 (h.misalignedOk hm)
    refine ⟨?_, ?_, hregs.symm, hent', ?_⟩
    · simp [takeFetchMisaligned, frontDrain, hent']
    · rw [← hent']; exact hm
    · simp [allEmpty, hM]

/-- A bound on the advances that may pass before M is occupied or the run is over. -/
def rank (s : State) : Nat :=
  if s.M.isSome then 0 else if s.X.isSome then 1 else if s.D.isSome then (if hazard s then 3 else 2)
  else if s.F.isSome then 4 else 5

theorem slots_of_done {s : State} {f : FrontEnd} (hd : (complete s f).done = true) :
    f.F = none ∧ f.D = none ∧ f.X = none ∧ s.X = none ∧ s.M = none := by
  simp only [complete_done, allEmpty, Bool.and_eq_true, Option.isNone_iff_eq_none] at hd
  tauto

/-- A run that is done has its pc outside the program region. -/
theorem outside_of_done {s t : State} (hs : step s = .next t) (hd : t.done = true) (hf : t.fault = none) :
    t.imem.fetch t.pc = .outside ∧ t.F = none ∧ t.D = none ∧ t.X = none ∧ t.M = none := by
  obtain ⟨-, f, hfe, rfl⟩ := step_eq_next hs
  obtain ⟨a, b, c, d, e⟩ := slots_of_done hd
  refine ⟨?_, a, by simp [b], by simp [c], by simp [d]⟩
  rcases frontEnd_cases hfe with ⟨a', hc, rfl⟩ | ⟨hc, rfl⟩ | ⟨hc, i, hfi, rfl⟩ | ⟨hc, hm, rfl⟩ | ⟨hc, hm, rfl⟩
  · obtain ⟨r, hX, ht⟩ := ctl_eq_branch.1 hc
    simp [d] at hX
  · obtain ⟨_, h1⟩ := ctl_eq_stall.1 hc
    obtain ⟨c', hD, -⟩ := (hazard_iff s).1 h1
    simp [frontStall] at b; simp [b] at hD
  · cases a
  · exact hm
  · simp [takeFetchMisaligned] at hf

/-- While nothing commits, the bound falls. -/
theorem rank_lt {s t : State} (hs : step s = .next t) (hM : s.M = none) (hf : t.fault = none) (hd : t.done = false) :
    rank t < rank s := by
  obtain ⟨-, f, hfe, rfl⟩ := step_eq_next hs
  cases hX : s.X with
  | some x => simp [rank, hM, hX]
  | none =>
    have hb : s.X.bind transfer = none := by simp [hX]
    cases hD : s.D with
    | some d =>
      cases hz : hazard s with
      | true =>
        have hc : ctl s = .stall := ctl_eq_stall.2 ⟨hb, hz⟩
        simp [frontEnd, hc] at hfe; subst hfe
        have : hazard (complete s (frontStall s)) = false := by
          simp [hazard, frontStall, hD, hX, hM]
        simp only [rank, this]
        simp [frontStall, hM, hX, hD, hz]
      | false =>
        have hc : ctl s = .proceed := ctl_eq_proceed.2 ⟨hb, hz⟩
        have : f.X = s.D := by
          rcases frontEnd_cases hfe with ⟨a', hc', rfl⟩ | ⟨hc', rfl⟩ | ⟨_, i, hfi, rfl⟩ | ⟨_, hm, rfl⟩ | ⟨_, hm, rfl⟩
          · rw [hc] at hc'; cases hc'
          · rw [hc] at hc'; cases hc'
          all_goals rfl
        simp [rank, this, hM, hX, hD, hz]
    | none =>
      have hz : hazard s = false := by simp [hazard, hD]
      have hc : ctl s = .proceed := ctl_eq_proceed.2 ⟨hb, hz⟩
      have h1 : f.X = s.D ∧ f.D = s.F := by
        rcases frontEnd_cases hfe with ⟨a', hc', rfl⟩ | ⟨hc', rfl⟩ | ⟨_, i, hfi, rfl⟩ | ⟨_, hm, rfl⟩ | ⟨_, hm, rfl⟩
        · rw [hc] at hc'; cases hc'
        · rw [hc] at hc'; cases hc'
        all_goals exact ⟨rfl, rfl⟩
      cases hF : s.F with
      | some q =>
        have : hazard (complete s f) = false := by
          simp only [hazard, complete_D, h1.2, hF]
          simp [h1.1, hD, hX, hM]
        simp only [rank, this]
        simp [h1.1, h1.2, hM, hX, hD, hF]
      | none =>
        rcases frontEnd_cases hfe with ⟨a', hc', rfl⟩ | ⟨hc', rfl⟩ | ⟨_, i, hfi, rfl⟩ | ⟨_, hm, rfl⟩ | ⟨_, hm, rfl⟩
        · rw [hc] at hc'; cases hc'
        · rw [hc] at hc'; cases hc'
        · simp [rank, frontFetch, hM, hX, hD, hF]
        · simp [frontDrain, allEmpty, hM, hX, hD, hF] at hd
        · simp [takeFetchMisaligned] at hf


end Sys2Proof.Machine
end

