-- ==== Sys2Proof/Tests/Slice0.lean ====
section
/-! SUPPORT. The model's own tests. Expected values come from 95_test_vectors.md (V1 to V27, P1 to P6) and from the
rules named. The theorems named witness_… show that an obligation's hypotheses can be met together. -/

namespace Sys2Proof.Tests

open Sys2Proof.Machine

/-! ## Helpers -/

/-- The state after `k` advances, if none of them stops. -/
def run (k : Nat) (s : State) : Option State :=
  match core.run k s with
  | .next t => some t
  | _ => none

/-- The state after an instruction's sequential effect. -/
def did (i : Instr) (s : State) : Option State :=
  match exec i s with
  | .next t => some t
  | _ => none

/-- A program at PROGRAM_BASE = 0, just after reset. -/
def program (ws : List Word) : State := State.atReset ⟨0, ws⟩

/-- A state whose x2 and x3 hold `a` and `b` and whose pc is 8. -/
def holding (a b : Word) : State := (((program []).setReg 2 a).setReg 3 b).setPc 8

/-- x1 after the sequential effect of `i` where x2 and x3 hold `a` and `b`. -/
def x1 (i : Instr) (a b : Word) : Option Word := (did i (holding a b)).map (fun t => t.reg 1)

/-- The pc after the sequential effect of `i` where x2 and x3 hold `a` and `b`. -/
def pcAfter (i : Instr) (a b : Word) : Option Word := (did i (holding a b)).map (fun t => t.pc)

/-- The pc values at which the slots F, D, X, M, W were filled after `k` advances. -/
def slots (k : Nat) (s : State) : Option (List (Option Word)) :=
  (run k s).map (fun t => [t.F, t.D, t.X, t.M, t.W].map (fun slot => slot.map (fun r => r.ipc)))

theorem run_eq {k : Nat} {s t : State} (h : run k s = some t) : core.run k s = .next t := by
  unfold run at h
  split at h
  · next u hu => cases h; exact hu
  · cases h

theorem step_of_run {s t : State} (h : run 1 s = some t) : step s = .next t := by
  have h1 := (run_succ core 0 s).symm.trans (run_eq h)
  cases hs : step s with
  | next u => rw [show core.step s = .next u from hs] at h1; exact h1
  | fault r => rw [show core.step s = .fault r from hs] at h1; cases h1
  | refused r => rw [show core.step s = .refused r from hs] at h1; cases h1

/-! ## Well-formedness: each check refuses an ill-formed term (R28, R91) -/

theorem test_wf_immediate_above : (Instr.addi 1 2 2048).wf = false := by decide
theorem test_wf_immediate_below : (Instr.andi 1 2 (-2049)).wf = false := by decide
theorem test_wf_displacement_above : (Instr.beq 1 2 4096).wf = false := by decide
theorem test_wf_load_offset : (Instr.lw 1 2 2048).wf = false := by decide
theorem test_wf_store_offset : (Instr.sw 1 2 (-2049)).wf = false := by decide
theorem test_wf_bounds_are_legal : (Instr.addi 1 2 2047).wf = true ∧ (Instr.bne 1 2 (-2048)).wf = true := by decide
/-- V12. -/
theorem test_encode_refuses : encode (.addi 1 2 2048) = .error (.immediateRange (.addi 1 2 2048)) ∧
    encode (.andi 1 2 4095) = .error (.immediateRange (.andi 1 2 4095)) := by decide

/-! ## Decoding: one word per constructor, bit by bit from R84 and R86 (V11) -/

theorem test_decode_add : decode 0b0000000_00011_00010_000_00001_0110011 = .ok (.add 1 2 3) := by decide
theorem test_decode_sub : decode 0b0100000_00011_00010_000_00001_0110011 = .ok (.sub 1 2 3) := by decide
theorem test_decode_and : decode 0b0000000_00011_00010_111_00001_0110011 = .ok (.and 1 2 3) := by decide
theorem test_decode_or : decode 0b0000000_00011_00010_110_00001_0110011 = .ok (.or 1 2 3) := by decide
theorem test_decode_xor : decode 0b0000000_00011_00010_100_00001_0110011 = .ok (.xor 1 2 3) := by decide
theorem test_decode_nor : decode 0b1111111_00011_00010_110_00001_0110011 = .ok (.nor 1 2 3) := by decide
theorem test_decode_slt : decode 0b0000000_00011_00010_010_00001_0110011 = .ok (.slt 1 2 3) := by decide
theorem test_decode_jr : decode 0b1111111_00000_00101_000_00000_0110011 = .ok (.jr 5) := by decide
/-- V13: the ten ignored bits. -/
theorem test_decode_jr_ignored_bits : decode 0b1111111_00101_11111_000_11111_0110011 = .ok (.jr 31) := by decide
theorem test_decode_addi : decode 0b100000000000_00010_000_00001_0010011 = .ok (.addi 1 2 (-2048)) := by decide
theorem test_decode_andi : decode 0b000011111111_00010_111_00001_0010011 = .ok (.andi 1 2 255) := by decide
theorem test_decode_ori : decode 0b000000001111_00010_110_00001_0010011 = .ok (.ori 1 2 15) := by decide
theorem test_decode_xori : decode 0b111111111111_00010_100_00001_0010011 = .ok (.xori 1 2 (-1)) := by decide
theorem test_decode_beq : decode 0b000000000011_00001_000_00010_1100011 = .ok (.beq 1 2 3) := by decide
theorem test_decode_bne : decode 0b100000000000_11111_001_11110_1100011 = .ok (.bne 31 30 (-2048)) := by decide
theorem test_decode_lw : decode 0b000000001000_00110_010_00101_0000011 = .ok (.lw 5 6 8) := by decide
theorem test_decode_sw : decode 0b011111111111_11111_010_11110_0100011 = .ok (.sw 30 31 2047) := by decide
/-- V14, one word or more per opcode. -/
theorem test_illegal_words_R : [0x00000000, 0xFFFFFFFF, 0x00001033, 0x40005033, 0x02000033, 0xFE001033].map mnemonicOf =
    [none, none, none, none, none, none] := by decide
theorem test_illegal_words_I : [0x00001013, 0x00002063, 0x00000003, 0x00001023, 0x00000073, 0x0000006F].map mnemonicOf =
    [none, none, none, none, none, none] := by decide
theorem test_illegal_word_error : decode 0 = .error (.noEntry 0) := by decide
/-- V11, hexadecimal column. -/
theorem test_encode_words : encode (.nor 1 2 3) = .ok 0xFE3160B3 ∧ encode (.jr 31) = .ok 0xFE0F8033 ∧
    encode (.bne 1 2 (-2)) = .ok 0xFFE09163 ∧ encode (.sw 5 6 8) = .ok 0x008322A3 := by decide
theorem test_decode_table_word : decodeTableWord 32 0xFFF10093 = some (.addi 1 2 (-1)) := by decide

/-! ## Sequential effects (V1, V2, V16, V17) -/

theorem test_add_wraps : x1 (.add 1 2 3) 0xFFFFFFFF 1 = some 0 := by decide
theorem test_sub_order : x1 (.sub 1 2 3) 10 3 = some 7 := by decide
theorem test_sub_borrows : x1 (.sub 1 2 3) 0 1 = some 0xFFFFFFFF := by decide
theorem test_and : x1 (.and 1 2 3) 0b1100 0b1010 = some 0b1000 := by decide
theorem test_or : x1 (.or 1 2 3) 0b1100 0b1010 = some 0b1110 := by decide
theorem test_xor : x1 (.xor 1 2 3) 0b1100 0b1010 = some 0b0110 := by decide
theorem test_nor : x1 (.nor 1 2 3) 0b1100 0b1010 = some 0xFFFFFFF1 := by decide
theorem test_slt_signed : x1 (.slt 1 2 3) 0xFFFFFFFF 0 = some 1 := by decide
theorem test_slt_extremes : x1 (.slt 1 2 3) 0x80000000 0x7FFFFFFF = some 1 := by decide
theorem test_slt_equal : x1 (.slt 1 2 3) 5 5 = some 0 := by decide
theorem test_addi_negative : x1 (.addi 1 2 (-1)) 0x80000000 0 = some 0x7FFFFFFF := by decide
theorem test_andi_sign_extends : x1 (.andi 1 2 (-1)) 0x12345678 0 = some 0x12345678 := by decide
theorem test_ori_sign_extends : x1 (.ori 1 2 (-2048)) 0 0 = some 0xFFFFF800 := by decide
theorem test_xori_complements : x1 (.xori 1 2 (-1)) 0x0000FFFF 0 = some 0xFFFF0000 := by decide
/-- V5: the destination is register 0. -/
theorem test_add_to_x0 : (did (.add 0 2 3) (holding 5 7)).map (fun t => (t.reg 0, t.regs[0], t.pc)) = some (0, 0, 12) := by
  decide
/-- R180 (ii): the source is also the destination. -/
theorem test_add_in_place : (did (.add 2 2 2) (holding 5 7)).map (fun t => t.reg 2) = some 10 := by decide
/-- R201, worked example: at 0x08 with off = 3. -/
theorem test_beq_taken : pcAfter (.beq 2 3 3) 7 7 = some 0x14 := by decide
theorem test_beq_not_taken : pcAfter (.beq 2 3 3) 7 8 = some 12 := by decide
theorem test_bne_backward : pcAfter (.bne 2 3 (-2)) 7 8 = some 0 := by decide
theorem test_bne_not_taken : pcAfter (.bne 2 3 (-2)) 7 7 = some 12 := by decide
/-- R203: the target is used as it is, no bit cleared. -/
theorem test_jr_unmodified : pcAfter (.jr 2) 0x13 0 = some 0x13 := by decide
/-- R210, worked example shape: the destination keeps its value. -/
theorem test_lw_does_nothing : did (.lw 2 3 8) (holding 9 0x100) = some ((holding 9 0x100).setPc 12) := by decide
theorem test_sw_does_nothing : did (.sw 2 3 8) (holding 9 0x100) = some ((holding 9 0x100).setPc 12) := by decide

/-! ## The pipeline (P1, V18, V22, P5) -/

/-- P1, `addi x1, x0, 5` / `addi x2, x0, 7` / `add x3, x1, x2`. -/
def p1 : State := program [0x00500093, 0x00700113, 0x002081B3]

/-- V22, `beq x0, x0, 2` / `addi x1, x0, 1` / `addi x2, x0, 2`. -/
def v22 : State := program [0x00200063, 0x00100093, 0x00200113]

/-- P5, `addi x1, x0, 2` / `jr x1` / `addi x2, x0, 1`. -/
def p5 : State := program [0x00200093, 0xFE008033, 0x00100113]

/-- P4's first instruction alone, `addi x1, x0, 1`. -/
def one : State := program [0x00100093]

theorem test_p1_stalled : slots 5 p1 = some [none, some 8, none, some 4, some 0] := by decide
theorem test_p1_done : (run 11 p1).map (fun t => (t.reg 3, t.pc, t.cycleCount, t.fetchCount, t.done)) =
    some (12, 0x0C, 11, 3, true) := by decide
theorem test_p1_not_done_in_10 : (run 10 p1).map (fun t => (t.reg 3, t.done)) = some (12, false) := by decide
/-- V22, cycles 4 and 5: the redirect squashes F and D, the target is fetched in the next cycle. -/
theorem test_v22_redirect : slots 4 v22 = some [none, none, none, some 0, none] ∧
    slots 5 v22 = some [some 8, none, none, none, some 0] := by decide
/-- P5, cycle 9: the fault, after which no advance is defined. -/
theorem test_p5_fault : (run 9 p5).map (fun t => (t.fault, t.pc, t.fetchCount, t.done)) =
    some (some (.fetchMisaligned 2), 2, 3, false) ∧ run 10 p5 = none := by decide
/-- The load seam: the word placed at reset is fetched by the next step. -/
theorem test_withFetchWord : (run 1 (State.reset.withFetchWord 32 0x00500093)).map (fun t => t.F) =
    some (some (fetchedRecord (.addi 1 0 5) 0)) := by decide

/-! ## Text (V11, V15) -/

theorem test_parse_hexadecimal : parseLine "addi x1, x0, -0x10".toList = .ok (some (.addi 1 0 (-16))) := by decide
theorem test_parse_commas_only : parseLine "add x1,x2,x3".toList = .ok (some (.add 1 2 3)) := by decide
theorem test_parse_label_operand : parseLine "beq x1, x2, target".toList =
    .error (.operandResolution "beq x1, x2, target".toList "target".toList) := by decide
theorem test_parse_store_form : parseLine "lw x1, 8(x2)".toList = .error (.syntaxError "lw x1, 8(x2)".toList) := by decide
theorem test_parse_no_such_register : parseLine "add x1, x2, x32".toList =
    .error (.syntaxError "add x1, x2, x32".toList) := by decide
/-- V9: a blank line is ignored. -/
theorem test_file_with_blank_line : assembleFile ["addi x1, x0, 5".toList, [], "addi x2, x0, 7".toList] =
    .ok [0x00500093, 0x00700113] := by decide
theorem test_dump : dumpLine 0x003100B3 = "00000000001100010000000010110011".toList := by decide

/-! ## Witnesses: the hypotheses of each obligation, met together -/

/-- A state a run reaches (R51), with a jr in X: P5's jr alone, its operand 2. -/
def jumping : State :=
  { program [0xFE008033] with pc := 4, cycleCount := 3, fetchCount := 1, X := some ⟨.jr 1, 0, some 2, none, none⟩ }

/-- `jumping` with its operand aligned and outside the program region. -/
def leaving : State := { jumping with X := some ⟨.jr 1, 0, some 8, none, none⟩ }

theorem jumping_fetched : FetchedFrom jumping.imem ⟨.jr 1, 0, some 2, none, none⟩ := ⟨0, 0xFE008033, rfl, rfl, rfl⟩

theorem witness_invariant : Inv jumping where
  memory_wf := by decide
  register_zero := by decide
  fetched := by
    intro st r h
    cases st <;> cases h
    exact jumping_fetched
  scratch_unset := by intro r h; cases h
  operands_set := by
    intro st r _ h
    cases st <;> cases h
    exact ⟨rfl, fun h => absurd rfl h⟩
  results_set := by
    intro st r _ _ h
    cases st <;> cases h
    exact fun h => absurd h (by decide)
  done_empty := by intro h; cases h

/-- EveryStepKeepsTheInvariant, LoadedMachineAlwaysAdvances, OnlyAJumpRegisterMisalignsThePc (all its premises). -/
theorem witness_jump_misaligns : Inv jumping ∧ jumping.fault = none ∧ jumping.pc.toNat % 4 = 0 ∧
    ∃ t, step jumping = .next t ∧ t.pc.toNat % 4 ≠ 0 :=
  ⟨witness_invariant, rfl, by decide, _, step_of_run rfl, by decide⟩

/-- ResetPutsEveryPieceAtItsValue, last clause. -/
theorem witness_reset_steps : ∃ t, step (hostReset p1) = .next t := ⟨_, step_of_run rfl⟩

/-- LoadedStatesMeetTheInvariant. -/
theorem witness_load : ∃ t, (program []).imem.base.toNat % 4 = 0 ∧ load [0x00500093] (program []) = .ok t :=
  ⟨_, by decide, rfl⟩

/-- LoadChecksEveryWordThenResets, the empty program (V25): the pc is PROGRAM_BASE. -/
theorem witness_load_empty : load [] (State.atReset ⟨0x1000, []⟩) = .ok (State.atReset ⟨0x1000, []⟩) ∧
    (State.atReset ⟨0x1000, []⟩).pc = 0x1000 := by decide

/-- LoadChecksEveryWordThenResets: a program that ends at 2^32, and one whose second word does not decode. -/
theorem witness_load_checks :
    (0xFFFFFFFC : Word).toNat + 4 * [(0x00500093 : Word)].length ≤ 2 ^ 32 ∧
    (∀ w ∈ ([0x00500093] : List Word), ∃ i, decode w = .ok i) ∧
    load [0x00500093, 0, 0x00500093] (program []) = .error (.decodingError 1 0) :=
  ⟨by decide, by simpa using ⟨_, rfl⟩, by decide⟩

/-- FetchLookupByAddress, every clause at its bounds: base 0x1000, two words. -/
theorem witness_fetch_lookup : (⟨0x1000, [0x00100093, 0x00200113]⟩ : Memory).wf = true ∧
    ([0x0FFF, 0x1000, 0x1001, 0x1004, 0x1007, 0x1008] : List Word).map
        (Memory.fetch ⟨0x1000, [0x00100093, 0x00200113]⟩) =
      [.outside, .instr (.addi 1 0 1), .misaligned, .instr (.addi 2 0 2), .misaligned, .outside] := by decide

/-- RegisterFileReadsAndWrites (V27): registers 5 and 0. -/
theorem witness_register_file : (5 : Reg) ≠ 0 ∧ (6 : Reg) ≠ 5 ∧ ((program []).setReg 5 9).reg 5 = 9 ∧
    ((program []).setReg 0 0xDEADBEEF).reg 0 = 0 := by decide

/-- ImmediateITypesComplete, both bounds (V17). -/
theorem witness_immediate_bounds : (-2048 : Int) ≤ -2048 ∧ (2047 : Int) ≤ 2047 ∧
    x1 (.addi 1 2 (-2048)) 0 0 = some 0xFFFFF800 ∧ x1 (.addi 1 2 2047) 0 0 = some 2047 := by decide

/-- BranchesComplete: both conditions. -/
theorem witness_branch_conditions : (holding 7 7).reg 2 = (holding 7 7).reg 3 ∧
    (holding 7 8).reg 2 ≠ (holding 7 8).reg 3 := by decide

/-- OnlyTheDestinationRegisterChanges: register 1 is no destination of an lw to it. -/
theorem witness_only_destination : (∃ t, exec (.lw 1 2 0) (holding 7 8) = .next t) ∧
    ¬ ((signals (Instr.lw 1 2 0).mnemonic).writesRegister = true ∧ dest (.lw 1 2 0) = some 1 ∧ (1 : Reg) ≠ 0) :=
  ⟨⟨_, rfl⟩, by decide⟩

/-- SequentialStepRunsTheFetchedInstruction: its three clauses. -/
theorem witness_sequential_step : one.imem.fetch one.pc = .instr (.addi 1 0 1) ∧
    one.imem.fetch (one.setPc 4).pc = .outside ∧ one.imem.fetch (one.setPc 2).pc = .misaligned := by decide

/-- StepFetchesTheDecodedInstruction and FiveAdvancesRunTheFetchedInstruction: just after reset. -/
theorem witness_step_fetches : one.fault = none ∧ ctl one = .proceed ∧ one.imem.fetch one.pc = .instr (.addi 1 0 1) ∧
    one.imem.wf = true ∧ one.Drained :=
  ⟨rfl, by decide, by decide, by decide, fun st => by cases st <;> rfl, rfl⟩

/-- FiveAdvancesRunTheFetchedInstruction, its transfer clause: a taken beq. -/
theorem witness_five_advances_transfer : (run 3 v22).map (fun t => t.X.bind transfer) = some (some 8) ∧
    (run 3 one).map (fun t => t.X.map transfer) = some (some none) := by decide

/-- HaltingProgramsAgree and CyclesToDone: one addi. -/
theorem witness_halting : one.imem.wf = true ∧ (∃ e, seqStep one = some (.next e) ∧ seqStep e = none) ∧
    seqRun 0 one = some one ∧ (∃ e, seqRun 1 one = some e ∧ seqStep e = none) :=
  ⟨by decide, ⟨_, rfl, by decide⟩, rfl, ⟨_, rfl, by decide⟩⟩

/-- CyclesToDone counts (P1: S = 3, T' = 0; V22: S = 0, T' = 1). -/
theorem witness_cycles : stallCycles 10 p1 = 3 ∧ takenTransfers 2 p1 = 0 ∧ stallCycles 9 v22 = 0 ∧
    takenTransfers 1 v22 = 1 := by decide

/-- FaultingProgramsAgree: P5. -/
theorem witness_faulting : p5.imem.wf = true ∧
    ∃ e, seqRun 2 p5 = some e ∧ seqStep e = some (.fault (.fetchMisaligned 2)) := ⟨by decide, _, rfl, rfl⟩

/-- EndlessProgramsAgree: `beq x0, x0, 0` (V24). -/
theorem witness_endless : ∀ n, (seqRun n (program [0x00000063])).isSome = true := by
  intro n
  induction n with
  | zero => rfl
  | succ n ih => exact ih

/-- The advance's statements that assume a next state with a record in D or X (DecodeReadsTheOldRegisters,
ExecuteComputesTheTabledResult, both operands set), and one with op2 unset (P5's jr). -/
theorem witness_stage_records :
    (∃ s t r, step s = .next t ∧ t.D = some r ∧ run 1 one = some s) ∧
    (∃ s t r, step s = .next t ∧ t.X = some r ∧ s.D = some ⟨.addi 1 0 1, 0, some 0, some 1, none⟩) ∧
    (∃ s t r, step s = .next t ∧ t.X = some r ∧ s.D = some ⟨.jr 1, 0, some 2, none, none⟩) :=
  ⟨⟨_, _, _, step_of_run rfl, rfl, rfl⟩,
    ⟨{ one with D := some ⟨.addi 1 0 1, 0, some 0, some 1, none⟩ }, _, _, step_of_run rfl, rfl, rfl⟩,
    ⟨{ p5 with D := some ⟨.jr 1, 0, some 2, none, none⟩ }, _, _, step_of_run rfl, rfl, rfl⟩⟩

/-- WriteBackWritesOnlyTheDestination: a record in M that writes, and one whose destination is register 0. -/
theorem witness_write_back :
    (∃ t, step { one with M := some ⟨.addi 1 0 1, 0, some 0, some 1, some 1⟩ } = .next t ∧ t.reg 1 = 1) ∧
    ∃ t, step { one with M := some ⟨.addi 0 0 1, 0, some 0, some 1, some 1⟩ } = .next t ∧ t.reg 0 = 0 :=
  ⟨⟨_, step_of_run rfl, by decide⟩, ⟨_, step_of_run rfl, by decide⟩⟩

/-- TransfersByConstructor: a record of each kind with its operands set. -/
theorem witness_operands_set : OperandsSet ⟨.beq 1 2 3, 8, some 1, some 1, none⟩ ∧
    OperandsSet ⟨.bne 1 2 3, 8, some 1, some 1, none⟩ ∧ OperandsSet ⟨.jr 1, 8, some 1, none, none⟩ ∧
    OperandsSet ⟨.add 1 2 3, 8, some 1, some 1, none⟩ ∧ OperandsSet ⟨.sw 1 2 3, 8, some 1, some 1, none⟩ :=
  ⟨⟨rfl, fun _ => rfl⟩, ⟨rfl, fun _ => rfl⟩, ⟨rfl, fun h => absurd rfl h⟩, ⟨rfl, fun _ => rfl⟩, ⟨rfl, fun _ => rfl⟩⟩

/-- TakenTransferHasPriorityOverHazard, StallHoldsFAndD, RedirectSquashesFAndD, WrongPathRecordsHaveNoEffect,
StaleOperandsAreNeverUsed: P1 stalls after cycle 4, V22 redirects after cycle 3, P1 proceeds after cycle 3. -/
theorem witness_requests : (run 4 p1).map (fun s => (ctl s, s.fault, s.X.map taken)) = some (.stall, none, some false) ∧
    (run 3 v22).map (fun s => (ctl s, s.fault, s.X.map taken, s.X.bind target)) =
      some (.branch 8, none, some true, some 8) ∧
    (run 3 p1).map (fun s => (ctl s, s.X.map taken)) = some (.proceed, some false) := by decide

/-- OutOfRangeFetchIsEmpty, at the first address after the program and the last before it. -/
theorem witness_out_of_range :
    (let s := one.setPc 4; s.fault = none ∧ ctl s = .proceed ∧ ¬ (s.pc.toNat < s.imem.base.toNat + 4 * s.imem.words.length)) ∧
    (let s := (State.atReset ⟨0x1000, [0x00100093]⟩).setPc 0xFFF;
      s.fault = none ∧ ctl s = .proceed ∧ ¬ (s.imem.base.toNat ≤ s.pc.toNat)) := by decide

/-- MisalignedFetchFaults, at the last misaligned address of the program; with it FaultedMachineIsStuck and
OnlyAMisalignedFetchSetsTheFault. -/
theorem witness_misaligned : (let s := one.setPc 3; s.fault = none ∧ ctl s = .proceed ∧
      s.imem.base.toNat ≤ s.pc.toNat ∧ s.pc.toNat < s.imem.base.toNat + 4 * s.imem.words.length ∧ s.pc.toNat % 4 ≠ 0) ∧
    ∃ t, step (one.setPc 3) = .next t ∧ t.fault = some (.fetchMisaligned 3) :=
  ⟨by decide, _, step_of_run rfl, by decide⟩

/-- PcChangesInThreeWays, CountersCountAdvancesAndFetches: a fetch, a stall, an out-of-range fetch, a redirect. -/
theorem witness_pc_changes : (run 1 one).map (fun t => (t.pc, t.fetchCount)) = some (4, 1) ∧
    (run 5 p1).map (fun t => (t.pc, t.fetchCount)) = some (0x0C, 3) ∧
    (run 2 one).map (fun t => (t.pc, t.fetchCount)) = some (4, 1) ∧
    (run 4 v22).map (fun t => (t.pc, t.fetchCount)) = some (8, 3) := by decide

/-- DoneMeansAllSlotsEmpty, DoneIsAbsorbing: the empty program after one advance. -/
theorem witness_done : ∃ t, step (program []) = .next t ∧ t.done = true ∧ t.fault = none :=
  ⟨_, step_of_run rfl, by decide, rfl⟩

/-- D's record of the stall witnesses: `add x2, x1, x1`. -/
def consumer : InFlight := ⟨.add 2 1 1, 4, some 0, some 0, none⟩

/-- A producer of x1. -/
def producer : InFlight := ⟨.addi 1 0 1, 0, some 0, some 1, some 1⟩

theorem producer_holds : HoldsProducer (some producer) consumer := ⟨producer, 1, rfl, rfl, rfl, by decide, by decide⟩

/-- The three slots of `s`, for a consumer in D. -/
def waiting (X M W : Slot) : State := { one with D := some consumer, X := X, M := M, W := W }

theorem empty_holds_no_producer : ¬ HoldsProducer none consumer := by rintro ⟨p, d, h, -⟩; cases h

/-- StallLengthByProducerDistance: its four clauses, the producer in X, M, W or nowhere. -/
theorem witness_stall_length :
    ((waiting (some producer) none none).X.bind transfer = none ∧ HoldsProducer (some producer) consumer) ∧
    ((waiting none (some producer) none).X.bind transfer = none ∧ ¬ HoldsProducer none consumer) ∧
    ctl (waiting none none (some producer)) = .stall ∧ ctl (waiting none none none) = .proceed :=
  ⟨⟨by decide, producer_holds⟩, ⟨by decide, empty_holds_no_producer⟩, by decide, by decide⟩

/-- TakenTransferRefetchesAtItsTarget: V22 after cycle 3. -/
theorem witness_refetch : (run 3 v22).map (fun s => (s.fault, s.X.bind transfer, s.imem.fetch 8)) =
    some (none, some 8, .instr (.addi 2 0 2)) := by decide

/-- UndisturbedInstructionMovesOneSlotPerCycle and UndisturbedProgramIsDoneAfterNPlusFive: N = 1. -/
theorem witness_undisturbed : one.imem.wf = true ∧ one.imem.limit < 2 ^ 32 ∧ 1 ≤ one.imem.words.length ∧
    Undisturbed (one.imem.words.length + 5) one := by
  refine ⟨by decide, by decide, by decide, fun k t hk h => ?_⟩
  have key : ∀ k < 6, (run k one).map ctl = some .proceed := by decide
  have h1 : run k one = some t := by unfold run; rw [h]; rfl
  have h2 := key k hk
  rw [h1] at h2
  exact Option.some.inj h2

/-- StaleOperandsAreNeverUsed: P1 after cycle 4 holds a record in D with stale operands. -/
theorem witness_stale : (run 4 p1).map (fun s => (ctl s, s.D.isSome)) = some (.stall, true) := by decide

/-- DecodeOfEncodeIsTheInstruction, AnyGoodTableRoundTrips: well-formed at both bounds. -/
theorem witness_well_formed : (Instr.sw 31 0 (-2048)).wf = true ∧ (Instr.bne 0 31 2047).wf = true ∧
    (Instr.jr 31).wf = true := by decide

/-- EncodeOfDecodeIsTheWord: both clauses (V13). -/
theorem witness_decodes : decode 0xFE5F8FB3 = .ok (.jr 31) ∧ encode (.jr 31) = .ok 0xFE0F8033 ∧
    decode 0xFFFFF013 = .ok (.andi 0 31 (-1)) := by decide

/-- A table with other values for nor and jr. -/
def otherTable : EncTable
  | .nor => some (.r 0b0110011 0b001 0b1010101)
  | .jr => some (.r 0b0110011 0b001 0b0000000)
  | m => encTable m

/-- AnyGoodTableRoundTrips. -/
theorem witness_other_table : otherTable.Good := by
  refine ⟨fun m => by cases m <;> exact ⟨_, rfl, rfl⟩, fun m m' row row' h h' hne => ?_⟩
  cases m <;> cases h <;> cases m' <;> cases h' <;> first | rfl | exact absurd rfl hne

/-- R87: two R rows of one (funct7, funct3) pair under different opcodes clash (P2); an R row and an I row of one opcode
clash (P1); two I rows of one funct3 under different opcodes do not (P3). -/
theorem test_clashing_rows : (EncRow.r 0b0110011 0b000 0b0000000).clash (.r 0b0111011 0b000 0b0000000) = true ∧
    (EncRow.r 0b0110011 0b000 0b0000000).clash (.i 0b0110011 0b111) = true ∧
    (EncRow.i 0b0010011 0b000).clash (.i 0b1100011 0b000) = false := by decide

/-- EncodeRefusesExactlyTwoCases: no row; a row and both bounds; a row and one past each bound. -/
theorem witness_encode_refuses : (fun m => if m = .nor then none else encTable m : EncTable) .nor = none ∧
    encTable .addi ≠ none ∧ (Instr.addi 1 2 2048).immField = some 2048 ∧ ¬ ((2048 : Int) ≤ 2047) ∧
    ¬ ((-2048 : Int) ≤ -2049) ∧ (Instr.addi 1 2 (-2048)).immField = some (-2048) := by decide

/-- AssembledLinesDecodeBack. -/
theorem witness_assembled : assembleLine "sw x5, x6, 8".toList = .ok (some 0x008322A3) := by decide

/-- OnlyTheSixteenMnemonicsParse: V15's subi. -/
theorem witness_no_mnemonic : tokens "subi x1, x2, 1".toList = ["subi".toList, "x1".toList, "x2".toList, "1".toList] ∧
    ∀ m, "subi".toList ≠ mnemonicText m := ⟨by decide, fun m => by cases m <;> decide⟩

/-- OnlyX0ToX31AreRegisters: both bounds, and a token that is no register. -/
theorem witness_registers : "x0".toList = 'x' :: Nat.toDigits 10 (0 : Reg).val ∧
    "x31".toList = 'x' :: Nat.toDigits 10 (31 : Reg).val ∧ ∀ r : Reg, "x32".toList ≠ 'x' :: Nat.toDigits 10 r.val := by
  decide

/-- ObservationShowsTheState: P1 after cycle 5 shows its three records, once each. -/
theorem witness_observation : (run 5 p1).map (fun s => (observe s).slots.map (fun v => (v.stage, v.record.ipc))) =
    some [(.D, 8), (.M, 4), (.W, 0)] := by decide

/-- FileFailsAtItsFirstBadLine: the first of two bad lines. -/
theorem witness_bad_file : parseFile ["addi x1, x0, 5".toList, "mul".toList, "addi x1, x0, q".toList] =
    .error (.syntaxError "mul".toList) := by decide

end Sys2Proof.Tests
end

section
/-! SUPPORT. The proofs about the state: register file and observation, what an advance makes of the pc, the fault and
the done flag, the frame of the sequential effects, and the invariant that every advance keeps (10_state.md R20 to R51).

The invariant rests on three facts: where the records of a new state's slots come from (`frontEnd_F`, `frontEnd_D`,
`frontEnd_X`), that Decode sets the operands (R139), and that Execute sets the result when they are set (R142). -/

namespace Sys2Proof.Machine

/-! ## The register file and frames (R21, R22, R150) -/

theorem read_of_ne_zero (f : RegFile) {q : Reg} (h : q ≠ 0) : RegFile.read f q = f[q] := if_neg h

/-- A write changes the storage of no register but its own, and of none when its own is register 0 (R22). -/
theorem write_storage_of_not_written (f : RegFile) {r q : Reg} (v : Word) (h : r = q → q = 0) :
    (RegFile.write f r v)[q] = f[q] := by
  unfold RegFile.write
  split
  · rfl
  · next hr =>
    have hne : (r : Nat) ≠ (q : Nat) := fun he =>
      have hrq : r = q := Fin.ext he
      hr (hrq.trans (h hrq))
    simp [Vector.getElem_set_ne, hne]

theorem setReg_sameButRegsPc (s : State) (r : Reg) (v : Word) : SameButRegsPc s (s.setReg r v) := by
  constructor <;> rfl

theorem setPc_sameButRegsPc (s : State) (p : Word) : SameButRegsPc s (s.setPc p) := by
  constructor <;> rfl

theorem retire_sameButRegsPc (s : State) (r : Reg) (v : Word) : SameButRegsPc s (s.retire r v) := by
  constructor <;> rfl

/-- Settles O7, from the rules for a read after a write. -/
theorem registerFileReadsAndWrites : Obligations.RegisterFileReadsAndWrites := by
  intro s r q v
  refine ⟨read_zero s.regs, read_of_ne_zero s.regs, rfl, fun hr => ?_, fun hq => ?_, setReg_sameButRegsPc s r v, rfl⟩
  · exact (read_write s.regs r r v).trans (if_pos ⟨rfl, hr⟩)
  · exact (read_write s.regs r q v).trans (if_neg fun h => hq h.1)

/-- The two things a sequential effect can be: it retires a value into the destination of an instruction that writes a
register, or it sets the pc and nothing else (R29, R150). -/
theorem exec_cases {i : Instr} {s t : State} (h : exec i s = .next t) :
    (∃ rd v, (signals i.mnemonic).writesRegister = true ∧ dest i = some rd ∧ t = s.retire rd v) ∨
    (∃ p, t = s.setPc p) := by
  cases i <;> cases h
  case add | sub | and | or | xor | nor | slt | addi | andi | ori | xori => exact .inl ⟨_, _, rfl, rfl, rfl⟩
  case jr | beq | bne | lw | sw => exact .inr ⟨_, rfl⟩

/-- Settles O14: what retires is a write of the destination, and a set pc leaves the register file alone. -/
theorem onlyTheDestinationRegisterChanges : Obligations.OnlyTheDestinationRegisterChanges := by
  intro i s t h
  rcases exec_cases h with ⟨rd, v, hw, hd, rfl⟩ | ⟨p, rfl⟩
  · refine ⟨retire_sameButRegsPc s rd v, fun r hr => write_storage_of_not_written s.regs v fun hrd => ?_⟩
    subst hrd
    exact by_contra fun h0 => hr ⟨hw, hd, h0⟩
  · exact ⟨setPc_sameButRegsPc s p, fun _ _ => rfl⟩

/-! ## Control signals (R29) -/

/-- aluOperation is 1 exactly where the Execute table has an entry (R29, R142). -/
theorem aluResult_isSome (m : Mnemonic) (a b : Word) : (aluResult m a b).isSome = (signals m).aluOperation := by
  cases m <;> rfl

/-- Settles O54: the table row by row, and its tie to the Execute table. -/
theorem controlSignalsByMnemonic : Obligations.ControlSignalsByMnemonic := by
  intro m
  refine ⟨?_, ?_, ?_, ?_, ?_, aluResult_isSome m⟩
  all_goals cases m <;> decide

/-! ## What the host observes (R42) -/

/-- An observed slot is a stage with the record it holds. -/
theorem mem_observe_slots (s : State) (st : Stage) (r : InFlight) :
    ⟨st, r⟩ ∈ (observe s).slots ↔ s.slot st = some r := by
  cases st <;> simp [observe, List.mem_filterMap]

/-- The five stages are distinct and an entry gives back its stage and record, so no entry is listed twice. -/
theorem observe_slots_nodup (s : State) : (observe s).slots.Nodup := by
  refine List.Nodup.filterMap (fun e e' view h h' => ?_) (by simp)
  have hback : ∀ e : Stage × Slot, view ∈ e.2.map (fun r => SlotView.mk e.1 r) → e = (view.stage, some view.record) := by
    rintro ⟨st, slot⟩ hv
    obtain ⟨r, rfl, rfl⟩ := Option.map_eq_some_iff.1 hv
    rfl
  exact (hback e h).trans (hback e' h').symm

/-- Settles O60, item by item of R42's list. -/
theorem observationShowsTheState : Obligations.ObservationShowsTheState := by
  intro s
  refine ⟨fun r => ?_, ?_, rfl, observe_slots_nodup s, mem_observe_slots s, rfl, rfl, rfl, rfl⟩
  · simp [observe]
  · simp [observe]

/-! ## The done flag (R35, R145) -/

theorem allEmpty_iff (F D X M W : Slot) :
    allEmpty F D X M W = true ↔ F = none ∧ D = none ∧ X = none ∧ M = none ∧ W = none := by
  simp [allEmpty, and_assoc]

/-- Every slot empty, stage by stage. -/
theorem slots_empty_iff (s : State) :
    (∀ st, s.slot st = none) ↔ s.F = none ∧ s.D = none ∧ s.X = none ∧ s.M = none ∧ s.W = none :=
  ⟨fun h => ⟨h .F, h .D, h .X, h .M, h .W⟩, fun ⟨hF, hD, hX, hM, hW⟩ st => by cases st <;> assumption⟩

/-- The stage logic of an advance fills no empty slot and empties none, so done speaks of the new slots (R145). -/
theorem complete_done_iff (s : State) (f : FrontEnd) :
    (complete s f).done = true ↔ ∀ st, (complete s f).slot st = none := by
  rw [slots_empty_iff, complete_done, allEmpty_iff]
  simp

/-- Settles O37: every next state completes a front end. -/
theorem doneMeansAllSlotsEmpty : Obligations.DoneMeansAllSlotsEmpty := by
  intro s t h
  obtain ⟨-, f, -, rfl⟩ := step_eq_next h
  exact complete_done_iff s f

/-! ## The fault and the pc of a step (R25, R36, R224) -/

/-- Settles O33. -/
theorem faultedMachineIsStuck : Obligations.FaultedMachineIsStuck :=
  fun s _ h => ⟨step_of_fault h, atReset_fault s.imem⟩

/-- A front end's fault is the misaligned fetch of a state without a request. -/
theorem frontEnd_fault {s : State} {f : FrontEnd} {c : Fault} (hf : frontEnd s = .ok f) (hc : f.fault = some c) :
    ctl s = .proceed ∧ s.imem.fetch s.pc = .misaligned ∧ c = .fetchMisaligned s.pc := by
  rcases frontEnd_cases hf with ⟨a, -, rfl⟩ | ⟨-, rfl⟩ | ⟨-, i, -, rfl⟩ | ⟨-, -, rfl⟩ | ⟨hp, hm, rfl⟩
  · cases hc
  · cases hc
  · cases hc
  · cases hc
  · cases hc
    exact ⟨hp, hm, rfl⟩

/-- Settles O34: only the misaligned front end carries a fault, and Fetch finds it only at such a pc. -/
theorem onlyAMisalignedFetchSetsTheFault : Obligations.OnlyAMisalignedFetchSetsTheFault := by
  intro s t c h hc
  obtain ⟨-, f, hf, rfl⟩ := step_eq_next h
  obtain ⟨hp, hm, rfl⟩ := frontEnd_fault hf hc
  obtain ⟨hlo, hhi, h4⟩ := fetch_eq_misaligned hm
  exact ⟨hp, hlo, hhi, h4, rfl⟩

/-- The pc a step leaves: the target of a redirect, the next address after a fetch, else the pc it found (R25). -/
theorem step_pc_cases {s t : State} (h : step s = .next t) :
    (∃ a, ctl s = .branch a ∧ t.pc = a) ∨
    (ctl s = .proceed ∧ ∃ i, s.imem.fetch s.pc = .instr i ∧ t.pc = nextPc s.pc) ∨
    ((∀ a, ctl s ≠ .branch a) ∧ (∀ i, ctl s = .proceed → s.imem.fetch s.pc ≠ .instr i) ∧ t.pc = s.pc) := by
  obtain ⟨-, f, hf, rfl⟩ := step_eq_next h
  rcases frontEnd_cases hf with ⟨a, hc, rfl⟩ | ⟨hc, rfl⟩ | ⟨hc, i, hi, rfl⟩ | ⟨hc, ho, rfl⟩ | ⟨hc, hm, rfl⟩
  · exact .inl ⟨a, hc, rfl⟩
  · exact .inr (.inr ⟨by simp [hc], by simp [hc], rfl⟩)
  · exact .inr (.inl ⟨hc, i, hi, rfl⟩)
  · exact .inr (.inr ⟨by simp [hc], by simp [ho], rfl⟩)
  · exact .inr (.inr ⟨by simp [hc], by simp [hm], rfl⟩)

/-- Settles O36: the three ways of `step_pc_cases`; the conditions on the request and the fetch exclude each other. -/
theorem pcChangesInThreeWays : Obligations.PcChangesInThreeWays := by
  intro s t h
  rcases step_pc_cases h with ⟨a, hc, rfl⟩ | ⟨hc, i, hi, hpc⟩ | ⟨hb, hn, hpc⟩
  · simp [hc]
  · refine ⟨fun _ => hpc, ?_, ?_, fun _ => .inl ⟨i, hc, hi⟩⟩ <;> simp [hc, hi]
  · exact ⟨fun ⟨i, hc, hi⟩ => absurd hi (hn i hc), fun _ => hpc, fun a hc => absurd hc (hb a),
      fun hne => absurd hpc hne⟩

/-! ## Where a transfer goes (R200, R205) -/

/-- A record transfers control to its branch target, or, a jr, to the value it read. -/
theorem transfer_cases {r : InFlight} {a : Word} (h : transfer r = some a) :
    (∃ off, a = branchTarget r.ipc off) ∨ ∃ rs1, r.instr = .jr rs1 ∧ r.op1 = some a := by
  have ht : target r = some a := by
    unfold transfer at h
    split at h
    · exact h
    · cases h
  unfold target at ht
  split at ht
  · next off _ => exact .inl ⟨off, (Option.some.inj ht).symm⟩
  · next off _ => exact .inl ⟨off, (Option.some.inj ht).symm⟩
  · next rs1 hi => exact .inr ⟨rs1, hi, ht⟩
  all_goals cases ht

/-- A record of a loaded program was fetched at an aligned address. -/
theorem FetchedFrom.aligned {m : Memory} {r : InFlight} (h : FetchedFrom m r) (hm : m.wf = true) :
    r.ipc.toNat % 4 = 0 := by
  obtain ⟨hb, -, -⟩ := (memory_wf_iff m).1 hm
  obtain ⟨k, w, -, hk, -⟩ := h
  omega

/-- Settles O35: a fetch and a branch keep the pc aligned, so the transfer was a jr's. -/
theorem onlyAJumpRegisterMisalignsThePc : Obligations.OnlyAJumpRegisterMisalignsThePc := by
  intro s t hinv hal hs hmis
  rcases step_pc_cases hs with ⟨a, hc, hpc⟩ | ⟨-, i, -, hpc⟩ | ⟨-, -, hpc⟩ <;> rw [hpc] at hmis ⊢
  · obtain ⟨r, hX, hr⟩ := ctl_eq_branch.1 hc
    rcases transfer_cases hr with ⟨off, rfl⟩ | ⟨rs1, hi, hop⟩
    · exact absurd (branchTarget_aligned off ((hinv.fetched .X r hX).aligned hinv.memory_wf)) hmis
    · exact ⟨r, rs1, a, hX, hi, hop, rfl⟩
  · exact absurd (nextPc_aligned hal) hmis
  · exact absurd hal hmis

/-! ## Where the records of a new state come from (R133 to R136) -/

/-- F keeps its record in a stall, or receives the one just fetched. -/
theorem frontEnd_F {s : State} {f : FrontEnd} {r : InFlight} (hf : frontEnd s = .ok f) (hr : f.F = some r) :
    s.F = some r ∨ ∃ i, s.imem.fetch s.pc = .instr i ∧ r = fetchedRecord i s.pc := by
  rcases frontEnd_cases hf with ⟨a, -, rfl⟩ | ⟨-, rfl⟩ | ⟨-, i, hi, rfl⟩ | ⟨-, -, rfl⟩ | ⟨-, -, rfl⟩
  · cases hr
  · exact .inl hr
  · exact .inr ⟨i, hi, (Option.some.inj hr).symm⟩
  · cases hr
  · cases hr

/-- D keeps its record in a stall, or receives F's. -/
theorem frontEnd_D {s : State} {f : FrontEnd} {r : InFlight} (hf : frontEnd s = .ok f) (hr : f.D = some r) :
    s.D = some r ∨ s.F = some r := by
  rcases frontEnd_cases hf with ⟨a, -, rfl⟩ | ⟨-, rfl⟩ | ⟨-, i, -, rfl⟩ | ⟨-, -, rfl⟩ | ⟨-, -, rfl⟩
  · cases hr
  · exact .inl hr
  · exact .inr hr
  · exact .inr hr
  · exact .inr hr

/-- X receives D's record or a bubble. -/
theorem frontEnd_X {s : State} {f : FrontEnd} {r : InFlight} (hf : frontEnd s = .ok f) (hr : f.X = some r) :
    s.D = some r := by
  rcases frontEnd_cases hf with ⟨a, -, rfl⟩ | ⟨-, rfl⟩ | ⟨-, i, -, rfl⟩ | ⟨-, -, rfl⟩ | ⟨-, -, rfl⟩
  · cases hr
  · cases hr
  · exact hr
  · exact hr
  · exact hr

/-! ## The invariant (R51) -/

theorem fetchedFrom_fetchedRecord {m : Memory} {pc : Word} {i : Instr} (h : m.fetch pc = .instr i) :
    FetchedFrom m (fetchedRecord i pc) := by
  obtain ⟨-, h'⟩ := fetch_eq_instr h
  exact h'

@[simp] theorem fetchedFrom_decodeLogic (m : Memory) (regs : RegFile) (r : InFlight) :
    FetchedFrom m (decodeLogic regs r) ↔ FetchedFrom m r := Iff.rfl

@[simp] theorem fetchedFrom_executeLogic (m : Memory) (r : InFlight) :
    FetchedFrom m (executeLogic r) ↔ FetchedFrom m r := by
  simp [FetchedFrom]

/-- Every instruction but jr has a second operand (R139). -/
theorem operand2_isSome (regs : RegFile) {i : Instr} (h : i.mnemonic ≠ .jr) : (operand2 regs i).isSome = true := by
  cases i
  case jr => exact absurd rfl h
  all_goals rfl

/-- Decode/RegisterRead sets both operands, jr's second excepted (R139). -/
theorem operandsSet_decodeLogic (regs : RegFile) (r : InFlight) : OperandsSet (decodeLogic regs r) :=
  ⟨rfl, operand2_isSome regs⟩

@[simp] theorem operandsSet_executeLogic (r : InFlight) : OperandsSet (executeLogic r) ↔ OperandsSet r := by
  simp [OperandsSet]

/-- Execute sets the result of a record whose operands are set, where the table has an entry (R142). -/
theorem OperandsSet.resultSet_executeLogic {r : InFlight} (h : OperandsSet r) : ResultSet (executeLogic r) := by
  intro halu
  rw [executeLogic_instr] at halu
  have hne : r.instr.mnemonic ≠ .jr := fun hj => by simp [hj, signals] at halu
  obtain ⟨a, ha⟩ := Option.isSome_iff_exists.1 h.1
  obtain ⟨b, hb⟩ := Option.isSome_iff_exists.1 (h.2 hne)
  obtain ⟨v, hv⟩ := Option.isSome_iff_exists.1 ((aluResult_isSome _ a b).trans halu)
  simp [executeLogic, ha, hb, hv]

/-- WriteBack leaves the storage of register 0 alone (R22, R144). -/
theorem writeBackLogic_storage_zero (regs : RegFile) (w : Slot) : (writeBackLogic regs w)[0] = regs[0] := by
  unfold writeBackLogic
  split
  · exact write_storage_zero ..
  · rfl

/-- R51 holds of every reset over a loaded memory: nothing is in flight and every register holds 0. -/
theorem inv_atReset {m : Memory} (hm : m.wf = true) : Inv (State.atReset m) where
  memory_wf := hm
  register_zero := rfl
  fetched := by simp
  scratch_unset := fun r h => by cases h
  operands_set := by simp
  results_set := by simp
  done_empty := by simp

/-- Settles O2. -/
theorem resetMeetsTheInvariant : Obligations.ResetMeetsTheInvariant := inv_atReset reset_memory_wf

section
variable {s : State} {f : FrontEnd} (hinv : Inv s) (hf : frontEnd s = .ok f)
include hinv hf

/-- R51 (ii) after an advance: a record is the one just fetched, or was in flight with the same Instruction and ipc. -/
theorem complete_fetched (st : Stage) (r : InFlight) (hr : (complete s f).slot st = some r) :
    FetchedFrom s.imem r := by
  cases st
  case F =>
    rcases frontEnd_F hf hr with hF | ⟨i, hi, rfl⟩
    · exact hinv.fetched .F r hF
    · exact fetchedFrom_fetchedRecord hi
  case D =>
    obtain ⟨q, hq, rfl⟩ := Option.map_eq_some_iff.1 hr
    rw [fetchedFrom_decodeLogic]
    exact (frontEnd_D hf hq).elim (hinv.fetched .D q) (hinv.fetched .F q)
  case X =>
    obtain ⟨q, hq, rfl⟩ := Option.map_eq_some_iff.1 hr
    rw [fetchedFrom_executeLogic]
    exact hinv.fetched .D q (frontEnd_X hf hq)
  case M => exact hinv.fetched .X r (by simpa using hr)
  case W => exact hinv.fetched .M r hr

/-- F's record is as Fetch creates it (R31). -/
theorem complete_scratch_unset (r : InFlight) (hr : f.F = some r) : r = fetchedRecord r.instr r.ipc := by
  rcases frontEnd_F hf hr with hF | ⟨i, -, rfl⟩
  · exact hinv.scratch_unset r hF
  · rfl

/-- R51 (iii) after an advance: D's operands are set by Decode, the later ones were set in the slot before. -/
theorem complete_operandsSet (st : Stage) (r : InFlight) (hst : st ≠ .F) (hr : (complete s f).slot st = some r) :
    OperandsSet r := by
  cases st
  case F => exact absurd rfl hst
  case D =>
    obtain ⟨q, -, rfl⟩ := Option.map_eq_some_iff.1 hr
    exact operandsSet_decodeLogic s.regs q
  case X =>
    obtain ⟨q, hq, rfl⟩ := Option.map_eq_some_iff.1 hr
    rw [operandsSet_executeLogic]
    exact hinv.operands_set .D q (by decide) (frontEnd_X hf hq)
  case M => exact hinv.operands_set .X r (by decide) (by simpa using hr)
  case W => exact hinv.operands_set .M r (by decide) hr

/-- R51 (iv) after an advance: X's result is set by Execute, the later ones were set in the slot before. -/
theorem complete_resultSet (st : Stage) (r : InFlight) (hF : st ≠ .F) (hD : st ≠ .D)
    (hr : (complete s f).slot st = some r) : ResultSet r := by
  cases st
  case F => exact absurd rfl hF
  case D => exact absurd rfl hD
  case X =>
    obtain ⟨q, hq, rfl⟩ := Option.map_eq_some_iff.1 hr
    exact (hinv.operands_set .D q (by decide) (frontEnd_X hf hq)).resultSet_executeLogic
  case M => exact hinv.results_set .X r (by decide) (by decide) (by simpa using hr)
  case W => exact hinv.results_set .M r (by decide) (by decide) hr

/-- Completing the front end of a state that meets the invariant keeps it. -/
theorem complete_keeps_inv : Inv (complete s f) where
  memory_wf := hinv.memory_wf
  register_zero := (writeBackLogic_storage_zero s.regs s.M).trans hinv.register_zero
  fetched := complete_fetched hinv hf
  scratch_unset := complete_scratch_unset hinv hf
  operands_set := complete_operandsSet hinv hf
  results_set := complete_resultSet hinv hf
  done_empty := (complete_done_iff s f).1

end

/-- Settles O4: every next state completes a front end of the old one. -/
theorem everyStepKeepsTheInvariant : Obligations.EveryStepKeepsTheInvariant := by
  intro s t hinv h
  obtain ⟨-, f, hf, rfl⟩ := step_eq_next h
  exact complete_keeps_inv hinv hf

end Sys2Proof.Machine
end

section
/-! SUPPORT. The proofs about the instruction memory: what Fetch finds at each address of a loaded memory
(20_memory.md R60, R61; 40_pipeline_engine.md R134) and the advance that fetches at a misaligned pc (R63, R224).

Since PROGRAM_BASE is a multiple of 4 and every word decodes, Fetch finds an instruction at each aligned address of the
program region, so that only an address outside the region is left for it to find nothing. -/

namespace Sys2Proof.Machine

/-! ## What Fetch finds (R134) -/

/-- An aligned address of the program region holds a word when PROGRAM_BASE is aligned (R60). -/
theorem exists_word_of_aligned {m : Memory} {a : Nat} (hb : m.base.toNat % 4 = 0) (hlo : m.base.toNat ≤ a)
    (hhi : a < m.base.toNat + 4 * m.words.length) (hal : a % 4 = 0) :
    ∃ k w, m.words[k]? = some w ∧ a = m.base.toNat + 4 * k := by
  obtain ⟨k, rfl⟩ : ∃ k, a = m.base.toNat + 4 * k := ⟨(a - m.base.toNat) / 4, by omega⟩
  have hk : k < m.words.length := by omega
  exact ⟨k, m.words[k], List.getElem?_eq_getElem hk, rfl⟩

/-- Fetch decodes the word it finds at PROGRAM_BASE + 4k (R134). -/
theorem fetch_of_word {m : Memory} {pc w : Word} {k : Nat} {i : Instr} (hb : m.base.toNat % 4 = 0)
    (hw : m.words[k]? = some w) (hpc : pc.toNat = m.base.toNat + 4 * k) (hi : decode w = .ok i) :
    m.fetch pc = .instr i := by
  obtain ⟨hk, -⟩ := List.getElem?_eq_some_iff.1 hw
  have hr : m.inRange pc.toNat = true := (memory_inRange_iff m _).2 ⟨by omega, by omega⟩
  have hal : pc.toNat % Config.ibytes = 0 := by unfold Config.ibytes; omega
  have hread : m.read pc.toNat = some w := (memory_read_eq_some m _ w).2 ⟨k, hpc, hw⟩
  simp [Memory.fetch, hr, hal, hread, hi]

theorem fetch_eq_instr_iff {m : Memory} (hm : m.wf = true) (pc : Word) (i : Instr) :
    m.fetch pc = .instr i ↔
      ∃ k w, m.words[k]? = some w ∧ pc.toNat = m.base.toNat + 4 * k ∧ decode w = .ok i := by
  obtain ⟨hb, -, -⟩ := (memory_wf_iff m).1 hm
  exact ⟨fun h => (fetch_eq_instr h).2, fun ⟨_, _, hw, hpc, hi⟩ => fetch_of_word hb hw hpc hi⟩

theorem fetch_eq_misaligned_iff (m : Memory) (pc : Word) :
    m.fetch pc = .misaligned ↔
      m.base.toNat ≤ pc.toNat ∧ pc.toNat < m.base.toNat + 4 * m.words.length ∧ pc.toNat % 4 ≠ 0 :=
  ⟨fetch_eq_misaligned, fun ⟨hlo, hhi, hmis⟩ => fetch_of_misaligned hlo hhi hmis⟩

/-- Every word of a loaded memory decodes, so Fetch finds an instruction at each aligned address of the region. -/
theorem exists_fetch_eq_instr {m : Memory} (hm : m.wf = true) {pc : Word} (hlo : m.base.toNat ≤ pc.toNat)
    (hhi : pc.toNat < m.base.toNat + 4 * m.words.length) (hal : pc.toNat % 4 = 0) : ∃ i, m.fetch pc = .instr i := by
  obtain ⟨hb, -, hlegal⟩ := (memory_wf_iff m).1 hm
  obtain ⟨k, w, hw, hpc⟩ := exists_word_of_aligned hb hlo hhi hal
  obtain ⟨i, hi⟩ := (decode_isOk_iff w).2 (hlegal w (List.mem_of_getElem? hw))
  exact ⟨i, fetch_of_word hb hw hpc hi⟩

/-- Inside the region of a loaded memory Fetch always finds something: an instruction or a misalignment. -/
theorem fetch_eq_outside_iff {m : Memory} (hm : m.wf = true) (pc : Word) :
    m.fetch pc = .outside ↔ ¬ (m.base.toNat ≤ pc.toNat ∧ pc.toNat < m.base.toNat + 4 * m.words.length) := by
  refine ⟨fun hout ⟨hlo, hhi⟩ => ?_, fetch_of_outside⟩
  by_cases hal : pc.toNat % 4 = 0
  · obtain ⟨i, hi⟩ := exists_fetch_eq_instr hm hlo hhi hal
    simp [hi] at hout
  · simp [fetch_of_misaligned hlo hhi hal] at hout

/-- Settles O6: the three answers of Fetch, each by its own characterisation. -/
theorem fetchLookupByAddress : Obligations.FetchLookupByAddress :=
  fun m pc hm => ⟨fetch_eq_outside_iff hm pc, fetch_eq_misaligned_iff m pc, fetch_eq_instr_iff hm pc⟩

/-! ## The advance that fetches at a misaligned pc (R63, R224) -/

theorem frontEnd_of_misaligned {s : State} (hc : ctl s = .proceed) (hm : s.imem.fetch s.pc = .misaligned) :
    frontEnd s = .ok (takeFetchMisaligned (frontDrain s)) := by
  simp [frontEnd, hc, hm]

/-- Settles O32: the step completes the front end of FetchMisaligned, and no advance follows a set fault. -/
theorem misalignedFetchFaults : Obligations.MisalignedFetchFaults := by
  intro s hf hc hlo hhi hmis
  have hfront := frontEnd_of_misaligned hc (fetch_of_misaligned hlo hhi hmis)
  exact ⟨_, step_of_frontEnd hf hfront, rfl, rfl, rfl, rfl, rfl, rfl, rfl, complete_M .., rfl, rfl, rfl,
    step_of_fault rfl⟩

end Sys2Proof.Machine
end

section
/-! SUPPORT. The proofs about the encoding: decoder and encoder are inverse to each other, under the table of R86 and
under every table with P1 to P4, the match and mask columns, and when the encoder refuses (30_encoding.md R84 to R98).

The round trip rests on two facts: the word laid out in a row has that row's key, and no word has the keys of two rows of
a good table, so the search for a row finds the one it was laid out in. The machine's decoder is that search
in the table of R86 (`decode_eq_decodeWith`). -/

namespace Sys2Proof

/-! ## Searching the mnemonics -/

theorem mem_all (m : Mnemonic) : m ∈ Mnemonic.all := by
  cases m <;> decide

/-- A search that at most one mnemonic passes finds that one. -/
theorem find_mnemonic_iff {p : Mnemonic → Bool} (huniq : ∀ m m', p m = true → p m' = true → m = m') (m : Mnemonic) :
    Mnemonic.all.find? p = some m ↔ p m = true := by
  refine ⟨List.find?_some, fun hm => ?_⟩
  obtain ⟨m', hm'⟩ := Option.isSome_iff_exists.1 (List.find?_isSome.2 ⟨m, mem_all m, hm⟩)
  rw [hm', huniq m' m (List.find?_some hm') hm]

/-! ## Rows and tables (R84, R86, R87) -/

theorem rowMatches_iff (t : EncTable) (m : Mnemonic) (w : Word) :
    t.rowMatches m w = true ↔ ∃ row, t m = some row ∧ row.instanceOf w = true := by
  unfold EncTable.rowMatches
  cases t m <;> simp

theorem instanceOf_r_iff (op : BitVec 7) (f3 : BitVec 3) (f7 : BitVec 7) (w : Word) :
    (EncRow.r op f3 f7).instanceOf w = true ↔ opcodeField w = op ∧ funct3Field w = f3 ∧ funct7Field w = f7 := by
  simp [EncRow.instanceOf, and_assoc]

theorem instanceOf_i_iff (op : BitVec 7) (f3 : BitVec 3) (w : Word) :
    (EncRow.i op f3).instanceOf w = true ↔ opcodeField w = op ∧ funct3Field w = f3 := by
  simp [EncRow.instanceOf]

/-- The word laid out in a row has its key. -/
theorem layout_instanceOf (row : EncRow) (i : Instr) : row.instanceOf (row.layout i) = true := by
  cases row <;> simp [EncRow.instanceOf, EncRow.layout]

/-- An R instruction's fields are read back from its word, whatever the row's key (R84). -/
theorem instrOfFields_layout_r {i : Instr} (hi : i.mnemonic.format = .rType) (op : BitVec 7) (f3 : BitVec 3)
    (f7 : BitVec 7) : instrOfFields i.mnemonic ((EncRow.r op f3 f7).layout i) = i := by
  cases i
  case add | sub | and | or | xor | nor | slt | jr =>
    simp [EncRow.layout, Instr.mnemonic, instrOfFields, Instr.fieldAt7, Instr.fieldAt15, Instr.fieldAt20]
  all_goals cases hi

/-- An I instruction's fields are read back from its word when its immediate fits, whatever the row's key (R84, R85). -/
theorem instrOfFields_layout_i {i : Instr} (hi : i.mnemonic.format = .iType) (hwf : i.wf = true) (op : BitVec 7)
    (f3 : BitVec 3) : instrOfFields i.mnemonic ((EncRow.i op f3).layout i) = i := by
  cases i
  case addi | andi | ori | xori | beq | bne | lw | sw =>
    simp [EncRow.layout, Instr.mnemonic, instrOfFields, Instr.fieldAt7, Instr.fieldAt15, Instr.immField,
      imm_field_imm hwf]
  all_goals cases hi

/-- A well-formed instruction is read back from its word in any row of its own format. -/
theorem instrOfFields_layout {i : Instr} {row : EncRow} (hrow : row.format = i.mnemonic.format) (hwf : i.wf = true) :
    instrOfFields i.mnemonic (row.layout i) = i := by
  cases row with
  | r op f3 f7 => exact instrOfFields_layout_r hrow.symm op f3 f7
  | i op f3 => exact instrOfFields_layout_i hrow.symm hwf op f3

/-- Every row of a good table has its mnemonic's format (R87 P4). -/
theorem EncTable.Good.format_of_row {t : EncTable} (ht : t.Good) {m : Mnemonic} {row : EncRow} (h : t m = some row) :
    row.format = m.format := by
  obtain ⟨hrows, -⟩ := ht
  obtain ⟨row', hrow', hf⟩ := hrows m
  rwa [Option.some.inj (h.symm.trans hrow')]

/-- No word has the keys of two rows of a good table (R87). -/
theorem EncTable.Good.rowMatches_unique {t : EncTable} (ht : t.Good) {w : Word} (m m' : Mnemonic)
    (h : t.rowMatches m w = true) (h' : t.rowMatches m' w = true) : m = m' := by
  obtain ⟨-, hclash⟩ := ht
  obtain ⟨row, hrow, hi⟩ := (rowMatches_iff t m w).1 h
  obtain ⟨row', hrow', hi'⟩ := (rowMatches_iff t m' w).1 h'
  by_contra hne
  simpa [clash_of_instances hi hi'] using hclash m m' row row' hrow hrow' hne

/-- Under a good table a word is read as an instruction of the mnemonic whose row's key it has. -/
theorem EncTable.Good.decodeWith_eq_ok {t : EncTable} (ht : t.Good) {m : Mnemonic} {w : Word}
    (h : t.rowMatches m w = true) : decodeWith t w = .ok (instrOfFields m w) := by
  simp [decodeWith, (find_mnemonic_iff ht.rowMatches_unique m).2 h]

/-- No two rows of the table of R86 clash. -/
theorem encTable_no_clash : ∀ m ∈ Mnemonic.all, ∀ m' ∈ Mnemonic.all, m ≠ m' →
    ∀ row ∈ encTable m, ∀ row' ∈ encTable m', row.clash row' = false := by decide

theorem encTable_row_format (m : Mnemonic) : ∃ row, encTable m = some row ∧ row.format = m.format := by
  cases m <;> exact ⟨_, rfl, rfl⟩

theorem encTable_good : EncTable.Good encTable :=
  ⟨encTable_row_format, fun m m' row row' h h' hne =>
    encTable_no_clash m (mem_all m) m' (mem_all m') hne row h row' h'⟩

/-- R95 written out finds the mnemonic that the search in the table of R86 finds. -/
theorem mnemonicOf_eq_find (w : Word) : mnemonicOf w = Mnemonic.all.find? (fun m => encTable.rowMatches m w) := by
  apply Option.ext
  intro m
  rw [mnemonicOf_iff_instance, ← rowMatches_iff, find_mnemonic_iff encTable_good.rowMatches_unique]

/-- The machine's decoder is the search in the table of R86. -/
theorem decode_eq_decodeWith (w : Word) : decode w = decodeWith encTable w := by
  unfold decode decodeWith
  rw [mnemonicOf_eq_find]

/-! ## When the encoder answers a word (R90, R91) -/

theorem wf_iff (i : Instr) : i.wf = true ↔ ∀ v, i.immField = some v → -2048 ≤ v ∧ v ≤ 2047 := by
  unfold Instr.wf
  cases i.immField <;> simp [immFits_iff]

/-- The encoder answers exactly for a mnemonic with a row and an immediate that fits, with the word in that row. -/
theorem encodeWith_eq_ok_iff (t : EncTable) (i : Instr) (w : Word) :
    encodeWith t i = .ok w ↔ i.wf = true ∧ ∃ row, t i.mnemonic = some row ∧ row.layout i = w := by
  unfold encodeWith
  cases t i.mnemonic <;> cases i.wf <;> simp

/-- With a row, the encoder refuses only an immediate that does not fit. -/
theorem encodeWith_of_not_wf {t : EncTable} {i : Instr} (ht : t i.mnemonic ≠ none) (hwf : ¬ i.wf = true) :
    encodeWith t i = .error (.immediateRange i) := by
  obtain ⟨row, hrow⟩ := Option.ne_none_iff_exists'.1 ht
  simp [encodeWith, hrow, hwf]

/-- Settles O52: the cases of the row and of the immediate. -/
theorem encodeRefusesExactlyTwoCases : Obligations.EncodeRefusesExactlyTwoCases := by
  intro t i
  refine ⟨fun hnone => ?_, fun ht hfits => ?_, fun ht v hv hout => ?_⟩
  · simp [encodeWith, hnone]
  · obtain ⟨row, hrow⟩ := Option.ne_none_iff_exists'.1 ht
    exact ⟨row.layout i, (encodeWith_eq_ok_iff t i _).2 ⟨(wf_iff i).2 hfits, row, hrow, rfl⟩⟩
  · exact encodeWith_of_not_wf ht fun hwf => hout ((wf_iff i).1 hwf v hv)

/-! ## The word of an instruction decodes to it (R87, R98) -/

/-- The word the encoder answers under a good table decodes to the instruction. -/
theorem EncTable.Good.decodeWith_of_encodeWith {t : EncTable} (ht : t.Good) {i : Instr} {w : Word}
    (h : encodeWith t i = .ok w) : decodeWith t w = .ok i := by
  obtain ⟨hwf, row, hrow, rfl⟩ := (encodeWith_eq_ok_iff t i w).1 h
  have hmatch : t.rowMatches i.mnemonic (row.layout i) = true :=
    (rowMatches_iff t _ _).2 ⟨row, hrow, layout_instanceOf row i⟩
  rw [ht.decodeWith_eq_ok hmatch, instrOfFields_layout (ht.format_of_row hrow) hwf]

theorem EncTable.Good.exists_encodeWith {t : EncTable} (ht : t.Good) {i : Instr} (hwf : i.wf = true) :
    ∃ w, encodeWith t i = .ok w := by
  obtain ⟨hrows, -⟩ := ht
  obtain ⟨row, hrow, -⟩ := hrows i.mnemonic
  exact ⟨row.layout i, (encodeWith_eq_ok_iff t i _).2 ⟨hwf, row, hrow, rfl⟩⟩

/-- Settles O50: a good table has a row for every mnemonic, and no word has the keys of two of them. -/
theorem anyGoodTableRoundTrips : Obligations.AnyGoodTableRoundTrips := by
  refine ⟨encTable_good, fun t i ht hwf => ?_⟩
  obtain ⟨w, hw⟩ := ht.exists_encodeWith hwf
  exact ⟨w, hw, ht.decodeWith_of_encodeWith hw⟩

/-- The word the machine's encoder answers decodes to the instruction. -/
theorem decode_of_encode {i : Instr} {w : Word} (h : encode i = .ok w) : decode w = .ok i :=
  (decode_eq_decodeWith w).trans (encTable_good.decodeWith_of_encodeWith h)

/-- Settles O48: the table of R86 is good, and the decoder is the search in it. -/
theorem decodeOfEncodeIsTheInstruction : Obligations.DecodeOfEncodeIsTheInstruction := by
  intro i hwf
  obtain ⟨w, hw⟩ := encTable_good.exists_encodeWith hwf
  exact ⟨w, hw, decode_of_encode hw⟩

/-! ## A word that decodes is the word of its instruction (R97, R98) -/

/-- Every instruction read from fields is well formed: a 12-bit field holds no immediate that does not fit (R28). -/
theorem instrOfFields_wf (m : Mnemonic) (w : Word) : (instrOfFields m w).wf = true := by
  cases m
  case add | sub | and | or | xor | nor | slt | jr => rfl
  all_goals exact imm_of_field_fits (immField12 w)

/-- What the mask 0xFE0FF07F keeps of a word: every R field but the two that jr leaves unused (R84, R97). -/
theorem and_jrMask (w : Word) :
    w &&& 0xFE0FF07F = rLayout (funct7Field w) 0 (rs1Field w) (funct3Field w) 0 (opcodeField w) := by
  apply BitVec.eq_of_getLsbD_eq
  intro i hi
  rw [getLsbD_rLayout]
  unfold funct7Field rs1Field funct3Field opcodeField
  interval_cases i <;> simp

/-- The fields of a word with a row's key, laid out in that row again, give the word; for jr without the bits it ignores. -/
theorem layout_instrOfFields {row : EncRow} {m : Mnemonic} {w : Word} (hrow : row.format = m.format)
    (h : row.instanceOf w = true) :
    row.layout (instrOfFields m w) = if m = .jr then w &&& 0xFE0FF07F else w := by
  cases row with
  | r op f3 f7 =>
    obtain ⟨rfl, rfl, rfl⟩ := (instanceOf_r_iff ..).1 h
    cases m
    case add | sub | and | or | xor | nor | slt => exact rLayout_of_fields w
    case jr => exact (and_jrMask w).symm
    all_goals cases hrow
  | i op f3 =>
    obtain ⟨rfl, rfl⟩ := (instanceOf_i_iff ..).1 h
    cases m
    case addi | andi | ori | xori | beq | bne | lw | sw =>
      simpa [EncRow.layout, instrOfFields, Instr.fieldAt7, Instr.fieldAt15, Instr.immField] using iLayout_of_fields w
    all_goals cases hrow

theorem encode_of_decode {w : Word} {i : Instr} (h : decode w = .ok i) :
    encode i = .ok (if i.mnemonic = .jr then w &&& 0xFE0FF07F else w) := by
  obtain ⟨m, hm, rfl⟩ := (decode_eq_ok_iff w i).1 h
  obtain ⟨row, hrow, hinst⟩ := (mnemonicOf_iff_instance w m).1 hm
  refine (encodeWith_eq_ok_iff ..).2 ⟨instrOfFields_wf m w, row, ?_, ?_⟩
  · rwa [instrOfFields_mnemonic]
  · rw [layout_instrOfFields (encTable_good.format_of_row hrow) hinst, instrOfFields_mnemonic]

/-- Settles O49: the two cases of `encode_of_decode`. -/
theorem encodeOfDecodeIsTheWord : Obligations.EncodeOfDecodeIsTheWord := by
  intro w i h
  have he := encode_of_decode h
  exact ⟨fun hne => by rwa [if_neg hne] at he, fun hjr => by rwa [if_pos hjr] at he⟩

/-! ## The match and mask columns (R86, R96) -/

/-- The bits a row's format fixes. -/
def EncRow.maskWord : EncRow → Word
  | .r .. => 0xFE00707F
  | .i .. => 0x0000707F

/-- A row's key in its layout, every other field zero. -/
def EncRow.matchWord : EncRow → Word
  | .r op f3 f7 => rLayout f7 0 0 f3 0 op
  | .i op f3 => iLayout 0 0 f3 0 op

/-- A row's mask keeps its key fields. -/
theorem instanceOf_and_maskWord (row : EncRow) (w : Word) : row.instanceOf (w &&& row.maskWord) = row.instanceOf w := by
  cases row with
  | r op f3 f7 =>
    rw [show w &&& (EncRow.r op f3 f7).maskWord = _ from and_rMask w]
    simp [EncRow.instanceOf]
  | i op f3 =>
    rw [show w &&& (EncRow.i op f3).maskWord = _ from and_iMask w]
    simp [EncRow.instanceOf]

theorem matchWord_instanceOf (row : EncRow) : row.instanceOf row.matchWord = true := by
  cases row <;> simp [EncRow.matchWord, EncRow.instanceOf]

/-- Masking compares a word's key fields with the row's. -/
theorem and_maskWord_eq_iff_instanceOf (row : EncRow) (w : Word) :
    w &&& row.maskWord = row.matchWord ↔ row.instanceOf w = true := by
  refine ⟨fun h => ?_, fun h => ?_⟩
  · rw [← instanceOf_and_maskWord, h, matchWord_instanceOf]
  · cases row with
    | r op f3 f7 =>
      obtain ⟨rfl, rfl, rfl⟩ := (instanceOf_r_iff ..).1 h
      exact and_rMask w
    | i op f3 =>
      obtain ⟨rfl, rfl⟩ := (instanceOf_i_iff ..).1 h
      exact and_iMask w

/-- The columns of R86 are its rows' masks and keys. -/
theorem columns_of_row {m : Mnemonic} {row : EncRow} (h : encTable m = some row) :
    m.maskWord = row.maskWord ∧ m.matchWord = row.matchWord := by
  cases m <;> cases h <;> decide

/-- The decoder's mnemonic is the one whose match the masked word is. -/
theorem mnemonicOf_iff_match (w : Word) (m : Mnemonic) : mnemonicOf w = some m ↔ w &&& m.maskWord = m.matchWord := by
  obtain ⟨row, hrow, -⟩ := encTable_row_format m
  obtain ⟨hmask, hmatch⟩ := columns_of_row hrow
  rw [mnemonicOf_iff_instance, hmask, hmatch, and_maskWord_eq_iff_instanceOf]
  simp [hrow]

theorem exists_decode_iff (w : Word) (m : Mnemonic) :
    (∃ i, decode w = .ok i ∧ i.mnemonic = m) ↔ mnemonicOf w = some m := by
  simp only [decode_eq_ok_iff]
  constructor
  · rintro ⟨_, ⟨m', hm', rfl⟩, rfl⟩
    rwa [instrOfFields_mnemonic]
  · intro hm
    exact ⟨_, ⟨m, hm, rfl⟩, instrOfFields_mnemonic m w⟩

theorem decode_eq_error_iff (w : Word) : decode w = .error (.noEntry w) ↔ mnemonicOf w = none := by
  unfold decode
  cases mnemonicOf w <;> simp

/-- Settles O51: the decoder's mnemonic, found by match and mask. -/
theorem decodeAgreesWithMatchAndMask : Obligations.DecodeAgreesWithMatchAndMask := by
  intro w
  refine ⟨fun m => (exists_decode_iff w m).trans (mnemonicOf_iff_match w m), ?_⟩
  rw [decode_eq_error_iff, Option.eq_none_iff_forall_ne_some]
  exact forall_congr' fun m => not_congr (mnemonicOf_iff_match w m)

/-- Settles O53: five closed words. -/
theorem writtenOutWordsDecode : Obligations.WrittenOutWordsDecode := by
  refine ⟨?_, ?_, ?_, ?_, ?_⟩ <;> decide

end Sys2Proof
end

section
/-! SUPPORT. The proofs about the assembly text and the binary dump: which tokens are mnemonics and registers, where a
file fails, that an assembled line decodes back, and the dump's characters (30_encoding.md R98, R105 to R112).

A register token's number is rebuilt digit by digit: reading one more digit into a positive number appends that digit's
character to the number's decimal text (`toDigits_of_digitsFrom`). -/

namespace Sys2Proof.Machine

/-! ## Mnemonics (R105, R110) -/

theorem mnemonicText_injective : Function.Injective mnemonicText := fun m m' h =>
  List.inj_on_of_nodup_map (l := Mnemonic.all) (by decide) (mem_all m) (mem_all m') h

theorem mnemonicOfText_eq_some_iff (t : List Char) (m : Mnemonic) :
    mnemonicOfText t = some m ↔ t = mnemonicText m := by
  unfold mnemonicOfText
  rw [find_mnemonic_iff, beq_iff_eq, eq_comm]
  intro m₁ m₂ h₁ h₂
  exact mnemonicText_injective ((beq_iff_eq.1 h₁).trans (beq_iff_eq.1 h₂).symm)

/-- Settles O56: a token that spells no mnemonic is looked up without success. -/
theorem onlyTheSixteenMnemonicsParse : Obligations.OnlyTheSixteenMnemonicsParse := by
  refine ⟨mnemonicOfText_eq_some_iff, fun line t ts hline hno => ?_⟩
  have hnone : mnemonicOfText t = none :=
    Option.eq_none_iff_forall_ne_some.2 fun m hm => hno m ((mnemonicOfText_eq_some_iff t m).1 hm)
  simp [parseLine, hline, hnone]

/-! ## Register tokens (R106) -/

/-- A decimal digit is the character of its value. -/
theorem eq_digitChar_of_digitValue {c : Char} {d : Nat} (h : digitValue 10 c = some d) :
    d < 10 ∧ c = Nat.digitChar d := by
  obtain ⟨hv, hd⟩ := Option.filter_eq_some_iff.1 h
  have hlt : d < 10 := of_decide_eq_true hd
  refine ⟨hlt, Char.toNat_inj.1 ?_⟩
  rw [Nat.toNat_digitChar_of_lt_ten hlt]
  split at hv
  · next hc =>
    have hlo : 48 ≤ c.toNat := hc.1
    have hval : c.toNat - 48 = d := Option.some.inj hv
    omega
  · split at hv
    · have hval : c.toNat - 97 + 10 = d := Option.some.inj hv
      omega
    · split at hv
      · have hval : c.toNat - 65 + 10 = d := Option.some.inj hv
        omega
      · cases hv

/-- Digits read into a positive number are appended to its decimal text. -/
theorem toDigits_of_digitsFrom {cs : List Char} {acc n : Nat} (hacc : 0 < acc) (h : digitsFrom 10 acc cs = some n) :
    Nat.toDigits 10 n = Nat.toDigits 10 acc ++ cs := by
  induction cs generalizing acc with
  | nil =>
    cases h
    exact (List.append_nil _).symm
  | cons c cs ih =>
    unfold digitsFrom at h
    split at h
    · next d hd =>
      obtain ⟨hlt, rfl⟩ := eq_digitChar_of_digitValue hd
      rw [ih (by omega) h, Nat.mul_comm acc, ← Nat.toDigits_append_toDigits (by decide) hacc hlt,
        Nat.toDigits_of_lt_base hlt, List.append_assoc, List.singleton_append]
    · cases h

/-- A number read without a leading zero is spelled by its decimal text. -/
theorem toDigits_of_digits {cs : List Char} {n : Nat} (hzero : ∀ cs', cs ≠ '0' :: cs') (h : digits 10 cs = some n) :
    Nat.toDigits 10 n = cs := by
  cases cs with
  | nil => cases h
  | cons c cs =>
    change digitsFrom 10 0 (c :: cs) = some n at h
    unfold digitsFrom at h
    split at h
    · next d hd =>
      obtain ⟨hlt, rfl⟩ := eq_digitChar_of_digitValue hd
      have hpos : 0 < d := Nat.pos_of_ne_zero fun h0 => hzero cs (by rw [h0]; rfl)
      rw [Nat.zero_mul, Nat.zero_add] at h
      rw [toDigits_of_digitsFrom hpos h, Nat.toDigits_of_lt_base hlt, List.singleton_append]
    · cases h

theorem register_toDigits : ∀ r : Reg, register ('x' :: Nat.toDigits 10 r.val) = some r := by decide

/-- A register token is x and the decimal text of its number. -/
theorem register_eq_some_iff (t : List Char) (r : Reg) : register t = some r ↔ t = 'x' :: Nat.toDigits 10 r.val := by
  refine ⟨fun h => ?_, fun h => h ▸ register_toDigits r⟩
  unfold register at h
  split at h
  · cases h
    rfl
  · cases h
  · next cs _ hzero =>
    split at h
    · next n hn =>
      split at h
      · cases h
        rw [toDigits_of_digits (fun cs' hcs => hzero cs' (by rw [hcs])) hn]
      · cases h
    · cases h
  · cases h

theorem registerOperand_eq_ok_iff (line t : List Char) (r : Reg) :
    registerOperand line t = .ok r ↔ register t = some r := by
  unfold registerOperand
  cases register t <;> simp

theorem registerOperand_of_none {t : List Char} (line : List Char) (h : register t = none) :
    registerOperand line t = .error (.syntaxError line) := by
  simp [registerOperand, h]

/-- Settles O57: a token is looked up as the register whose text it is, and fails when it is no register's. -/
theorem onlyX0ToX31AreRegisters : Obligations.OnlyX0ToX31AreRegisters := by
  intro line t
  refine ⟨fun r => (registerOperand_eq_ok_iff line t r).trans (register_eq_some_iff t r), fun hno => ?_⟩
  exact registerOperand_of_none line
    (Option.eq_none_iff_forall_ne_some.2 fun r hr => hno r ((register_eq_some_iff t r).1 hr))

/-! ## Lines and files (R98, R109, R221) -/

/-- A line assembles to the encoding of what it parses to. -/
theorem assembleLine_eq_ok_some {line : List Char} {w : Word} (h : assembleLine line = .ok (some w)) :
    ∃ i, parseLine line = .ok (some i) ∧ encode i = .ok w := by
  unfold assembleLine at h
  split at h
  · cases h
  · cases h
  · next i hi =>
    split at h
    · next v hv =>
      cases h
      exact ⟨i, hi, hv⟩
    · cases h

/-- Settles O55: the word of a line is its instruction's, which the encoder accepts only when it is well formed. -/
theorem assembledLinesDecodeBack : Obligations.AssembledLinesDecodeBack := by
  intro line w h
  obtain ⟨i, hparse, henc⟩ := assembleLine_eq_ok_some h
  obtain ⟨hwf, -⟩ := (encodeWith_eq_ok_iff encTable i w).1 henc
  exact ⟨i, hparse, hwf, decode_of_encode henc⟩

/-- A file fails at its first line, or that line parses and the rest fails. -/
theorem parseFile_cons_eq_error_iff (line : List Char) (rest : List (List Char)) (e : AsmError) :
    parseFile (line :: rest) = .error e ↔
      parseLine line = .error e ∨ (∃ o, parseLine line = .ok o) ∧ parseFile rest = .error e := by
  rw [parseFile]
  rcases hline : parseLine line with e' | _ | i
  · simp
  · simp
  · cases parseFile rest <;> simp [Except.map]

/-- Settles O58, by induction on the lines. -/
theorem fileFailsAtItsFirstBadLine : Obligations.FileFailsAtItsFirstBadLine := by
  intro lines e
  induction lines with
  | nil => simp [parseFile]
  | cons line rest ih =>
    rw [parseFile_cons_eq_error_iff, ih]
    constructor
    · rintro (hbad | ⟨hok, pre, bad, post, rfl, hpre, hbad⟩)
      · exact ⟨[], line, rest, rfl, by simp, hbad⟩
      · exact ⟨line :: pre, bad, post, rfl, by simpa [hok] using hpre, hbad⟩
    · rintro ⟨pre, bad, post, hsplit, hpre, hbad⟩
      rcases List.cons_eq_append_iff.1 hsplit with ⟨rfl, hcons⟩ | ⟨pre', rfl, rfl⟩
      · cases hcons
        exact .inl hbad
      · obtain ⟨hok, hpre'⟩ := List.forall_mem_cons.1 hpre
        exact .inr ⟨hok, pre', bad, post, rfl, hpre', hbad⟩

/-! ## The dump (R112) -/

/-- Settles O59: a dump maps the words, and a line maps the positions 0 … 31 to the bits 31 … 0. -/
theorem dumpLineWritesBit31First : Obligations.DumpLineWritesBit31First := by
  refine ⟨fun ws n => List.getElem?_map, fun w => ⟨by simp [dumpLine], fun k hk => ?_⟩⟩
  simp [dumpLine, List.getElem?_range hk]

end Sys2Proof.Machine
end

section
/-! SUPPORT. The proofs about the instructions' sequential effects (40_pipeline_engine.md R150; 41_rtype_alu.md,
42_itype_alu.md, 43_control_transfer.md, 44_load_store.md): what each instruction completes with, the step of the
sequential reading, and that the stages run in turn have the same effect. -/

namespace Sys2Proof.Machine

/-! ## What completes (R180 to R211) -/

/-- What an instruction completes with that retires a value into its destination (R180, R190). -/
theorem completes_of_retire {o : Host.Outcome State Fault Refusal} {s : State} {rd : Reg} {v : Word}
    (h : o = .next (s.retire rd v)) :
    ∃ t, o = .next t ∧ WritesOnly s t rd v ∧ t.pc = s.pc + 4 ∧ SameButRegsPc s t :=
  ⟨_, h, retire_writesOnly s rd v, rfl, retire_sameButRegsPc s rd v⟩

/-- The value of slt is 1 or 0 by the signed comparison (R187). -/
theorem aluSlt_eq (a b : Word) : aluSlt a b = if a.toInt < b.toInt then 1 else 0 := by
  simp [aluSlt, signedLess]

/-- Settles O8. -/
theorem arithmeticRTypesComplete : Obligations.ArithmeticRTypesComplete := by
  intro rd rs1 rs2 s
  refine ⟨completes_of_retire rfl, completes_of_retire rfl, completes_of_retire ?_⟩
  rw [← aluSlt_eq]
  rfl

/-- Settles O9. -/
theorem logicalRTypesComplete : Obligations.LogicalRTypesComplete := fun _ _ _ _ =>
  ⟨completes_of_retire rfl, completes_of_retire rfl, completes_of_retire rfl, completes_of_retire rfl⟩

/-- The Word of an immediate in range is the sign extension of its 12-bit field (R85, R190). -/
theorem immWord_eq_signExtend {imm : Int} (hlo : -2048 ≤ imm) (hhi : imm ≤ 2047) :
    immWord imm = (BitVec.ofInt 12 imm).signExtend 32 := by
  have hfield : (BitVec.ofInt 12 imm).toInt = imm := BitVec.toInt_ofInt_eq_self (by decide) hlo (by omega)
  rw [BitVec.signExtend, hfield, immWord]

/-- Settles O10: each retires the operation on the immediate's Word, which is the sign-extended field. -/
theorem immediateITypesComplete : Obligations.ImmediateITypesComplete := by
  intro rd rs1 imm s hlo hhi
  rw [← immWord_eq_signExtend hlo hhi]
  exact ⟨completes_of_retire rfl, completes_of_retire rfl, completes_of_retire rfl, completes_of_retire rfl⟩

/-- Settles O11: both set the pc by the condition, which is the equality of the whole Words. -/
theorem branchesComplete : Obligations.BranchesComplete := by
  intro rs1 rs2 off s
  refine ⟨⟨_, rfl, rfl, setPc_sameButRegsPc s _, fun h => ?_, fun h => ?_⟩,
    ⟨_, rfl, rfl, setPc_sameButRegsPc s _, fun h => ?_, fun h => ?_⟩⟩
  all_goals simp [equalCondition, h, branchTarget, nextPc]

/-- Settles O12. -/
theorem jumpRegisterCompletes : Obligations.JumpRegisterCompletes :=
  fun _ s => ⟨_, rfl, rfl, rfl, setPc_sameButRegsPc s _⟩

/-- Settles O13. -/
theorem loadStorePlaceholdersComplete : Obligations.LoadStorePlaceholdersComplete :=
  fun _ _ _ s => ⟨⟨_, rfl, rfl, rfl, setPc_sameButRegsPc s _⟩, ⟨_, rfl, rfl, rfl, setPc_sameButRegsPc s _⟩⟩

/-! ## The sequential reading (R150) -/

theorem seqStep_of_instr {s : State} {i : Instr} (h : s.imem.fetch s.pc = .instr i) : seqStep s = some (exec i s) := by
  simp [seqStep, h]

theorem seqStep_of_outside {s : State} (h : s.imem.fetch s.pc = .outside) : seqStep s = none := by
  simp [seqStep, h]

theorem seqStep_of_misaligned {s : State} (h : s.imem.fetch s.pc = .misaligned) :
    seqStep s = some (.fault (.fetchMisaligned s.pc)) := by
  simp [seqStep, h]

/-- Settles O15, by what Fetch finds at the pc. -/
theorem sequentialStepRunsTheFetchedInstruction : Obligations.SequentialStepRunsTheFetchedInstruction :=
  fun _ _ => ⟨seqStep_of_instr, seqStep_of_outside, seqStep_of_misaligned⟩

/-- The stages run in turn have the sequential effect: Decode reads the operands, Execute computes the value that
WriteBack writes, or the transfer sets the pc (R180, R190, R201 to R203, R210, R211). -/
theorem exec_eq_passThrough (i : Instr) (s : State) : exec i s = .next (passThrough i s) := by
  cases i
  case beq rs1 rs2 off =>
    change Host.Outcome.next (s.setPc (if equalCondition (s.reg rs1) (s.reg rs2) then branchTarget s.pc off
      else nextPc s.pc)) = .next (s.setPc ((if equalCondition (s.reg rs1) (s.reg rs2) then some (branchTarget s.pc off)
      else none).getD (nextPc s.pc)))
    split <;> rfl
  case bne rs1 rs2 off =>
    change Host.Outcome.next (s.setPc (if equalCondition (s.reg rs1) (s.reg rs2) then nextPc s.pc
      else branchTarget s.pc off)) = .next (s.setPc ((if !equalCondition (s.reg rs1) (s.reg rs2) then
      some (branchTarget s.pc off) else none).getD (nextPc s.pc)))
    cases equalCondition (s.reg rs1) (s.reg rs2) <;> rfl
  all_goals rfl

end Sys2Proof.Machine
end

section
/-! SUPPORT. The proofs about one advance (40_pipeline_engine.md R130 to R146): the step each control request makes,
the records it moves from slot to slot, what each stage does to the record it receives, and the counters. -/

namespace Sys2Proof.Machine

/-! ## The step of each control request (R133 to R136) -/

section
variable {s : State} (hf : s.fault = none)
include hf

theorem step_of_branch {a : Word} (hc : ctl s = .branch a) : step s = .next (complete s (frontRedirect s a)) :=
  step_of_frontEnd hf (by simp [frontEnd, hc])

theorem step_of_stall (hc : ctl s = .stall) : step s = .next (complete s (frontStall s)) :=
  step_of_frontEnd hf (by simp [frontEnd, hc])

theorem step_of_instr {i : Instr} (hc : ctl s = .proceed) (hi : s.imem.fetch s.pc = .instr i) :
    step s = .next (complete s (frontFetch s i)) :=
  step_of_frontEnd hf (by simp [frontEnd, hc, hi])

theorem step_of_outside (hc : ctl s = .proceed) (ho : s.imem.fetch s.pc = .outside) :
    step s = .next (complete s (frontDrain s)) :=
  step_of_frontEnd hf (by simp [frontEnd, hc, ho])

end

/-- Settles O17: the step completes the front end of a fetch, and F's new record keeps done false. -/
theorem stepFetchesTheDecodedInstruction : Obligations.StepFetchesTheDecodedInstruction := by
  intro s i hf hc hi
  exact ⟨_, step_of_instr hf hc hi, rfl, rfl, rfl, complete_M .., rfl, rfl, rfl, rfl, rfl, rfl, rfl, rfl⟩

/-- Settles O31. -/
theorem outOfRangeFetchIsEmpty : Obligations.OutOfRangeFetchIsEmpty := by
  intro s hf hc hout
  exact ⟨_, step_of_outside hf hc (fetch_of_outside hout), rfl, rfl, rfl, rfl, rfl, rfl, complete_M .., rfl, rfl, rfl,
    rfl⟩

/-- Settles O29: the record that waits in D keeps done false. -/
theorem stallHoldsFAndD : Obligations.StallHoldsFAndD := by
  intro s hf hc
  obtain ⟨-, hz⟩ := ctl_eq_stall.1 hc
  obtain ⟨c, hD, -⟩ := (hazard_iff s).1 hz
  refine ⟨_, step_of_stall hf hc, rfl, complete_M .., rfl, rfl, rfl, rfl, rfl, rfl, rfl, ?_, rfl, rfl⟩
  simp [frontStall, allEmpty, hD]

/-- With nothing in D and X there is nothing to wait for and nothing to transfer control (R131, R132). -/
theorem ctl_of_empty {s : State} (hD : s.D = none) (hX : s.X = none) : ctl s = .proceed :=
  ctl_eq_proceed.2 ⟨by simp [hX], by simp [hazard, hD]⟩

/-- Settles O30: the transfer itself, in M, keeps done false. -/
theorem redirectSquashesFAndD : Obligations.RedirectSquashesFAndD := by
  intro s a hf hc
  obtain ⟨r, hX, -⟩ := ctl_eq_branch.1 hc
  refine ⟨_, step_of_branch hf hc, rfl, complete_M .., rfl, rfl, rfl, rfl, ctl_of_empty rfl rfl, rfl, rfl, rfl, ?_, rfl,
    rfl⟩
  simp [allEmpty, hX]

/-- Settles O40: a loaded memory has a front end for every request. -/
theorem loadedMachineAlwaysAdvances : Obligations.LoadedMachineAlwaysAdvances := by
  intro s hinv hf
  obtain ⟨f, hfe⟩ := frontEnd_of_wf hinv.memory_wf
  exact ⟨_, step_of_frontEnd hf hfe⟩

/-! ## The control request (R131, R132) -/

/-- Whatever the request, the records of X and M move one slot on (R133, R135, R136). -/
theorem step_M_W {s t : State} (h : step s = .next t) : t.M = s.X ∧ t.W = s.M := by
  obtain ⟨-, f, -, rfl⟩ := step_eq_next h
  exact ⟨complete_M .., rfl⟩

/-- Settles O26. -/
theorem takenTransferHasPriorityOverHazard : Obligations.TakenTransferHasPriorityOverHazard := by
  intro s
  have hnone (h : ∀ r, s.X = some r → taken r = false) : s.X.bind transfer = none :=
    Option.bind_eq_none_iff.2 fun r hX => by simp [transfer, h r hX]
  refine ⟨fun r a hX ht ha => ?_, fun h hz => ctl_eq_stall.2 ⟨hnone h, hz⟩, fun h hz => ctl_eq_proceed.2 ⟨hnone h, hz⟩⟩
  have hc : ctl s = .branch a := ctl_eq_branch.2 ⟨r, hX, by simp [transfer, ht, ha]⟩
  refine ⟨hc, fun t h => ?_⟩
  obtain ⟨hf, -⟩ := step_eq_next h
  rw [step_of_branch hf hc] at h
  cases h
  rfl

/-- Settles O27: a producer in one of the three slots, each slot being that of its stage. -/
theorem hazardNamesItsProducer : Obligations.HazardNamesItsProducer := by
  refine ⟨fun s => (hazard_iff s).trans ⟨?_, ?_⟩, fun i r => ?_⟩
  · rintro ⟨c, hD, ⟨p, d, hp⟩ | ⟨p, d, hp⟩ | ⟨p, d, hp⟩⟩
    · exact ⟨c, .X, p, d, hD, .inl rfl, hp⟩
    · exact ⟨c, .M, p, d, hD, .inr (.inl rfl), hp⟩
    · exact ⟨c, .W, p, d, hD, .inr (.inr rfl), hp⟩
  · rintro ⟨c, st, p, d, hD, rfl | rfl | rfl, hp⟩
    · exact ⟨c, hD, .inl ⟨p, d, hp⟩⟩
    · exact ⟨c, hD, .inr (.inl ⟨p, d, hp⟩)⟩
    · exact ⟨c, hD, .inr (.inr ⟨p, d, hp⟩)⟩
  · cases i <;> simp [sources]

/-- Settles O46: neither the request nor the redirect's front end looks at F and D. -/
theorem wrongPathRecordsHaveNoEffect : Obligations.WrongPathRecordsHaveNoEffect := by
  intro s a F D hc
  rcases Option.eq_none_or_eq_some s.fault with hf | ⟨c, hf⟩
  · obtain ⟨r, hX, hr⟩ := ctl_eq_branch.1 hc
    exact (step_of_branch (s := { s with F := F, D := D }) hf (ctl_eq_branch.2 ⟨r, hX, hr⟩)).trans
      (step_of_branch hf hc).symm
  · exact (step_of_fault (s := { s with F := F, D := D }) hf).trans (step_of_fault hf).symm

/-- The hazard unit compares registers and looks at no operand value (R132). -/
theorem hazard_withOperandsInD (s : State) (a b : Option Word) : hazard (s.withOperandsInD a b) = hazard s := by
  cases hD : s.D <;> simp [hazard, State.withOperandsInD, hD, producesFor]

/-- A stall reads the operands of D's record again and forgets what they were (R140). -/
theorem complete_frontStall_withOperandsInD (s : State) (a b : Option Word) :
    complete (s.withOperandsInD a b) (frontStall (s.withOperandsInD a b)) = complete s (frontStall s) := by
  cases hD : s.D <;> simp [complete, frontStall, State.withOperandsInD, hD, decodeLogic_forgets, allEmpty]

/-- Settles O47: the hazard unit does not look at the operands, and a stall reads them again. -/
theorem staleOperandsAreNeverUsed : Obligations.StaleOperandsAreNeverUsed := by
  intro s a b hc
  rcases Option.eq_none_or_eq_some s.fault with hf | ⟨c, hf⟩
  · obtain ⟨hX, hz⟩ := ctl_eq_stall.1 hc
    have hc' : ctl (s.withOperandsInD a b) = .stall := ctl_eq_stall.2 ⟨hX, (hazard_withOperandsInD s a b).trans hz⟩
    rw [step_of_stall hf hc, step_of_stall (s := s.withOperandsInD a b) hf hc', complete_frontStall_withOperandsInD]
  · exact (step_of_fault (s := s.withOperandsInD a b) hf).trans (step_of_fault hf).symm

/-! ## The stages (R139 to R144) -/

/-- D's record after a step has been through Decode in that step (R139, R140). -/
theorem step_D {s t : State} {r : InFlight} (h : step s = .next t) (hr : t.D = some r) :
    ∃ q, r = decodeLogic s.regs q := by
  obtain ⟨-, f, -, rfl⟩ := step_eq_next h
  obtain ⟨q, -, rfl⟩ := Option.map_eq_some_iff.1 hr
  exact ⟨q, rfl⟩

/-- X's record after a step is D's, executed (R142). -/
theorem step_X {s t : State} {r : InFlight} (h : step s = .next t) (hr : t.X = some r) :
    ∃ d, s.D = some d ∧ r = executeLogic d := by
  obtain ⟨-, f, hf, rfl⟩ := step_eq_next h
  obtain ⟨d, hd, rfl⟩ := Option.map_eq_some_iff.1 hr
  exact ⟨d, frontEnd_X hf hd, rfl⟩

theorem step_regs {s t : State} (h : step s = .next t) : t.regs = writeBackLogic s.regs s.M := by
  obtain ⟨-, f, -, rfl⟩ := step_eq_next h
  rfl

/-- Settles O22, by the operand forms of each constructor. -/
theorem decodeReadsTheOldRegisters : Obligations.DecodeReadsTheOldRegisters := by
  intro s t r h hr
  obtain ⟨q, rfl⟩ := step_D h hr
  simp only [decodeLogic_instr, decodeLogic_op1, decodeLogic_op2]
  cases q.instr <;> exact ⟨rfl, rfl⟩

/-- Execute leaves a record's result alone when operand 2 is unset (assumption 8). -/
theorem executeLogic_result_of_unset {d : InFlight} (hb : d.op2 = none) : (executeLogic d).result = d.result := by
  simp [executeLogic, hb]

/-- Execute's result is the table's where the mnemonic has an entry, else the result the record came with (R142). -/
theorem executeLogic_result {d : InFlight} {a b : Word} (ha : d.op1 = some a) (hb : d.op2 = some b) :
    (executeLogic d).result = (aluResult d.instr.mnemonic a b).or d.result := by
  unfold executeLogic
  simp only [ha, hb]
  cases aluResult d.instr.mnemonic a b <;> rfl

/-- Settles O23, by the entry of each constructor's mnemonic. -/
theorem executeComputesTheTabledResult : Obligations.ExecuteComputesTheTabledResult := by
  intro s t r h hr
  obtain ⟨d, hD, rfl⟩ := step_X h hr
  refine ⟨d, hD, executeLogic_instr d, executeLogic_ipc d, executeLogic_op1 d, executeLogic_op2 d,
    executeLogic_result_of_unset, fun a b ha hb => ?_⟩
  rw [executeLogic_result ha hb]
  cases d.instr
  case slt => exact congrArg some (aluSlt_eq a b)
  all_goals rfl

/-- Settles O24. -/
theorem memoryAccessPassesThrough : Obligations.MemoryAccessPassesThrough :=
  fun _ _ h => ⟨(step_M_W h).1, step_imem h⟩

/-- A register write is seen by reads of its own register only (R22). -/
theorem writesOnly_of_regs {s t : State} {d : Reg} {v : Word} (h : t.regs = RegFile.write s.regs d v) :
    WritesOnly s t d v := by
  have hw := retire_writesOnly s d v
  simpa only [WritesOnly, State.reg, retire_regs, h] using hw

/-- WriteBack of a record without a destination other than register 0 leaves the register file alone (R22, R144). -/
theorem writeBackLogic_of_no_dest {regs : RegFile} {w : Slot} (h : ∀ r d, w = some r →
    (signals r.instr.mnemonic).writesRegister = true → dest r.instr = some d → d = 0) :
    writeBackLogic regs w = regs := by
  unfold writeBackLogic
  split
  · next d v hw =>
    obtain ⟨r, rfl, hr⟩ := Option.bind_eq_some_iff.1 hw
    unfold writeBackOf at hr
    split at hr
    · next hs =>
      split at hr
      · next hd hv =>
        cases hr
        rw [h r d rfl hs hd, write_zero]
      · cases hr
    · cases hr
  · rfl

/-- Settles O25. -/
theorem writeBackWritesOnlyTheDestination : Obligations.WriteBackWritesOnlyTheDestination := by
  intro s t h
  refine ⟨(step_M_W h).2, fun r d v hM hw hd _ hv => writesOnly_of_regs ?_, fun hno => ?_⟩
  · rw [step_regs h, hM]
    simp [writeBackLogic, writeBackOf, hw, hd, hv]
  · rw [step_regs h, writeBackLogic_of_no_dest hno]

/-! ## The counters and the done state (R145, R146) -/

/-- The fetch counter of a front end: one up after a fetch, else as it was (R134, R146). -/
theorem frontEnd_fetchCount {s : State} {f : FrontEnd} (hf : frontEnd s = .ok f) :
    (ctl s = .proceed ∧ (∃ i, s.imem.fetch s.pc = .instr i) ∧ f.fetchCount = s.fetchCount + 1) ∨
    ((∀ i, ctl s = .proceed → s.imem.fetch s.pc ≠ .instr i) ∧ f.fetchCount = s.fetchCount) := by
  rcases frontEnd_cases hf with ⟨a, hc, rfl⟩ | ⟨hc, rfl⟩ | ⟨hc, i, hi, rfl⟩ | ⟨-, ho, rfl⟩ | ⟨-, hm, rfl⟩
  · exact .inr ⟨by simp [hc], rfl⟩
  · exact .inr ⟨by simp [hc], rfl⟩
  · exact .inl ⟨hc, ⟨i, hi⟩, rfl⟩
  · exact .inr ⟨by simp [ho], rfl⟩
  · exact .inr ⟨by simp [hm], rfl⟩

/-- Settles O39. -/
theorem countersCountAdvancesAndFetches : Obligations.CountersCountAdvancesAndFetches := by
  intro s t h
  obtain ⟨-, f, hf, rfl⟩ := step_eq_next h
  refine ⟨rfl, ?_⟩
  rcases frontEnd_fetchCount hf with ⟨hc, ⟨i, hi⟩, hn⟩ | ⟨hno, hn⟩
  · exact ⟨fun _ => hn, fun hno => absurd ⟨i, hc, hi⟩ hno⟩
  · exact ⟨fun ⟨i, hc, hi⟩ => absurd hi (hno i hc), fun _ => hn⟩

/-- Completing a drain over empty slots counts the cycle and changes nothing else. -/
theorem complete_frontDrain_of_done {t : State} (hslots : ∀ st, t.slot st = none) (hd : t.done = true)
    (hf : t.fault = none) : complete t (frontDrain t) = { t with cycleCount := t.cycleCount + 1 } := by
  obtain ⟨hF, hD, hX, hM, hW⟩ := (slots_empty_iff t).1 hslots
  cases t
  simp_all [complete, frontDrain, writeBackLogic, allEmpty]

/-- Settles O38: the slots are empty and the pc is outside the region, so the next advance drains empty slots. -/
theorem doneIsAbsorbing : Obligations.DoneIsAbsorbing := by
  intro s t h hd hf
  obtain ⟨hout, -, hD, hX, -⟩ := outside_of_done h hd hf
  rw [step_of_outside hf (ctl_of_empty hD hX) hout]
  exact congrArg _ (complete_frontDrain_of_done ((doneMeansAllSlotsEmpty s t h).1 hd) hd hf)

end Sys2Proof.Machine
end

section
/-! SUPPORT. The proofs about timing (40_pipeline_engine.md R152 to R155): how long a consumer waits for its producer,
what a taken transfer costs, and where each instruction of an undisturbed program stands in each cycle.

The last part follows an undisturbed run by one invariant, `StraightLine`: after cycle c the slot of stage j holds
instruction c − 1 − j of the program, if there is one, and the pc has moved on by one word per fetch. -/

namespace Sys2Proof.Machine

/-! ## Waiting for a producer (R132, R135, R154) -/

theorem not_holdsProducer_none (c : InFlight) : ¬ HoldsProducer none c := by
  rintro ⟨p, d, h, -⟩
  cases h

theorem ctl_of_no_producer {s : State} {c : InFlight} (hX : s.X.bind transfer = none) (hD : s.D = some c)
    (hx : ¬ HoldsProducer s.X c) (hm : ¬ HoldsProducer s.M c) (hw : ¬ HoldsProducer s.W c) : ctl s = .proceed := by
  refine ctl_eq_proceed.2 ⟨hX, Bool.eq_false_iff.2 fun hz => ?_⟩
  obtain ⟨c', hD', hp⟩ := (hazard_iff s).1 hz
  cases hD.symm.trans hD'
  tauto

/-- A producer holds the record in D for a cycle, in which every producer moves one slot further from it (R135). -/
theorem step_of_producer {s : State} {c : InFlight} (hf : s.fault = none) (hX : s.X.bind transfer = none)
    (hD : s.D = some c) (hp : HoldsProducer s.X c ∨ HoldsProducer s.M c ∨ HoldsProducer s.W c) :
    ∃ t c', step s = .next t ∧ ctl s = .stall ∧ t.fault = none ∧ t.X = none ∧ t.M = s.X ∧ t.W = s.M ∧
      t.D = some c' ∧ ∀ slot, HoldsProducer slot c' ↔ HoldsProducer slot c := by
  have hc : ctl s = .stall := ctl_eq_stall.2 ⟨hX, (hazard_iff s).2 ⟨c, hD, hp⟩⟩
  refine ⟨_, decodeLogic s.regs c, step_of_stall hf hc, hc, rfl, rfl, complete_M .., rfl, ?_, fun _ => Iff.rfl⟩
  simp [frontStall, hD]

section
variable {s : State} {c : InFlight} (hf : s.fault = none) (hX : s.X.bind transfer = none) (hD : s.D = some c)
include hf hX hD

/-- A consumer waits one cycle for a producer in W. -/
theorem waits_for_W (hx : ¬ HoldsProducer s.X c) (hm : ¬ HoldsProducer s.M c) (hw : HoldsProducer s.W c) :
    ∃ t₁, step s = .next t₁ ∧ ctl s = .stall ∧ ctl t₁ = .proceed := by
  obtain ⟨t, c', hs, hc, -, hX', hM', hW', hD', hc'⟩ := step_of_producer hf hX hD (.inr (.inr hw))
  refine ⟨t, hs, hc, ctl_of_no_producer (by simp [hX']) hD' ?_ ?_ ?_⟩
  · rw [hX']; exact not_holdsProducer_none c'
  · rwa [hM', hc']
  · rwa [hW', hc']

/-- A consumer waits a cycle more for a producer in M: after one cycle it is in W. -/
theorem waits_for_M (hx : ¬ HoldsProducer s.X c) (hm : HoldsProducer s.M c) :
    ∃ t₁ t₂, step s = .next t₁ ∧ step t₁ = .next t₂ ∧ ctl s = .stall ∧ ctl t₁ = .stall ∧ ctl t₂ = .proceed := by
  obtain ⟨t, c', hs, hc, hf', hX', hM', hW', hD', hc'⟩ := step_of_producer hf hX hD (.inr (.inl hm))
  have hx' : ¬ HoldsProducer t.X c' := by rw [hX']; exact not_holdsProducer_none c'
  obtain ⟨t₂, hs₂, hc₁, hc₂⟩ := waits_for_W hf' (by simp [hX']) hD' hx' (by rwa [hM', hc']) (by rwa [hW', hc'])
  exact ⟨t, t₂, hs, hs₂, hc, hc₁, hc₂⟩

/-- A consumer waits a cycle more for a producer in X: after one cycle it is in M. -/
theorem waits_for_X (hx : HoldsProducer s.X c) :
    ∃ t₁ t₂ t₃, step s = .next t₁ ∧ step t₁ = .next t₂ ∧ step t₂ = .next t₃ ∧
      ctl s = .stall ∧ ctl t₁ = .stall ∧ ctl t₂ = .stall ∧ ctl t₃ = .proceed := by
  obtain ⟨t, c', hs, hc, hf', hX', hM', -, hD', hc'⟩ := step_of_producer hf hX hD (.inl hx)
  have hx' : ¬ HoldsProducer t.X c' := by rw [hX']; exact not_holdsProducer_none c'
  obtain ⟨t₂, t₃, hs₂, hs₃, hc₁, hc₂, hc₃⟩ := waits_for_M hf' (by simp [hX']) hD' hx' (by rwa [hM', hc'])
  exact ⟨t, t₂, t₃, hs, hs₂, hs₃, hc, hc₁, hc₂, hc₃⟩

end

/-- Settles O41, by the slot of the nearest producer. -/
theorem stallLengthByProducerDistance : Obligations.StallLengthByProducerDistance :=
  fun _ _ hf hX hD => ⟨waits_for_X hf hX hD, waits_for_M hf hX hD, waits_for_W hf hX hD, ctl_of_no_producer hX hD⟩

/-! ## The cost of a taken transfer (R136, R155) -/

/-- Settles O42: the redirect leaves F, D and X empty, so that the next advance fetches, at the target. -/
theorem takenTransferRefetchesAtItsTarget : Obligations.TakenTransferRefetchesAtItsTarget := by
  intro s r a i hf hX hr hi
  have hc : ctl s = .branch a := ctl_eq_branch.2 ⟨r, hX, hr⟩
  have hM : (complete s (frontRedirect s a)).M = some r := (complete_M ..).trans hX
  have hfetch := step_of_instr (s := complete s (frontRedirect s a)) rfl (ctl_of_empty rfl rfl) hi
  exact ⟨_, _, step_of_branch hf hc, rfl, rfl, rfl, hM, rfl, hfetch, rfl, rfl, rfl, complete_M .., hM, rfl, rfl⟩

/-! ## The undisturbed program (R152, R153) -/

/-- The inversion of a run: its first step answers, and it goes on from there. -/
theorem core_run_succ_eq_next {k : Nat} {s u : State} (h : core.run (k + 1) s = .next u) :
    ∃ t, step s = .next t ∧ core.run k t = .next u := by
  have h' := (run_succ core k s).symm.trans h
  split at h'
  · next t ht => exact ⟨t, ht, h'⟩
  · cases h'
  · cases h'

/-- A run goes on by a step from the state it answers. -/
theorem core_run_step {k : Nat} {s t u : State} (h : core.run k s = .next t) (hs : step t = .next u) :
    core.run (k + 1) s = .next u := by
  induction k generalizing s with
  | zero =>
    cases h
    exact core_run_succ 0 hs
  | succ k ih =>
    obtain ⟨s₁, hs₁, h₁⟩ := core_run_succ_eq_next h
    exact (core_run_succ (k + 1) hs₁).trans (ih h₁)

/-- The five stages in the order a record passes them (R32). -/
def Stage.order : List Stage := [.F, .D, .X, .M, .W]

theorem Stage.order_length : Stage.order.length = 5 := rfl

/-- The slot holds what stage `j` of an undisturbed program holds after cycle `c`: instruction c − 1 − j, if there is
one (R152). -/
structure HoldsInCycle (m : Memory) (c j : Nat) (slot : Slot) : Prop where
  holds : ∀ k, c = k + 1 + j → k < m.words.length → ∃ r, slot = some r ∧ r.ipc.toNat = m.base.toNat + 4 * k
  empty : (∀ k, c = k + 1 + j → m.words.length ≤ k) → slot = none

/-- What a stage holds, the next one holds a cycle later (R152). -/
theorem HoldsInCycle.move {m : Memory} {c j : Nat} {slot : Slot} (h : HoldsInCycle m c j slot)
    {logic : InFlight → InFlight} (hipc : ∀ r, (logic r).ipc = r.ipc) :
    HoldsInCycle m (c + 1) (j + 1) (slot.map logic) where
  holds k hk hlt := by
    obtain ⟨r, rfl, hr⟩ := h.holds k (by omega) hlt
    exact ⟨logic r, rfl, by rw [hipc, hr]⟩
  empty hno := by
    rw [h.empty fun k hk => hno k (by omega)]
    rfl

/-- The address after that of word `n` is that of word `n + 1` (R24, R60). -/
theorem nextPc_word (base : Word) (n : Nat) :
    nextPc (base + BitVec.ofNat 32 (4 * n)) = base + BitVec.ofNat 32 (4 * (n + 1)) := by
  simp [nextPc, Nat.mul_add, BitVec.ofNat_add, BitVec.add_assoc]

/-- The state `s` of an undisturbed program after cycle `c` (R152, R153). -/
structure StraightLine (m : Memory) (c : Nat) (s : State) : Prop where
  imem : s.imem = m
  fault : s.fault = none
  pc : s.pc = m.base + BitVec.ofNat 32 (4 * min c m.words.length)
  fetchCount : s.fetchCount = min c m.words.length
  slots : ∀ j st, Stage.order[j]? = some st → HoldsInCycle m c j (s.slot st)

theorem straightLine_atReset (m : Memory) : StraightLine m 0 (State.atReset m) where
  imem := rfl
  fault := rfl
  pc := by simp
  fetchCount := by simp [State.atReset]
  slots j st _ := ⟨fun k hk => by omega, fun _ => atReset_slot m st⟩

section
variable {m : Memory} {c : Nat} {s : State} (h : StraightLine m c s)
include h

/-- The slots of the next cycle, F's apart: without a request every record moves one stage on. -/
theorem StraightLine.complete_slots {f : FrontEnd} (hD : f.D = s.F) (hX : f.X = s.D)
    (hF : HoldsInCycle m (c + 1) 0 f.F) (j : Nat) (st : Stage) (hst : Stage.order[j]? = some st) :
    HoldsInCycle m (c + 1) j ((complete s f).slot st) := by
  rcases j with _ | _ | _ | _ | _ | j
  case succ.succ.succ.succ.succ => cases hst
  all_goals cases hst
  · exact hF
  · rw [slot_D, complete_D, hD]
    exact (h.slots 0 .F rfl).move (decodeLogic_ipc s.regs)
  · rw [slot_X, complete_X, hX]
    exact (h.slots 1 .D rfl).move executeLogic_ipc
  · exact (h.slots 2 .X rfl).move fun _ => rfl
  · simpa using (h.slots 3 .M rfl).move (logic := id) fun _ => rfl

/-- While instructions are left, the pc of an undisturbed program is that of the next one. -/
theorem StraightLine.pc_toNat (hm : m.wf = true) (hc : c < m.words.length) :
    s.pc.toNat = m.base.toNat + 4 * c := by
  obtain ⟨-, hlimit, -⟩ := (memory_wf_iff m).1 hm
  rw [h.pc, Nat.min_eq_left hc.le, BitVec.toNat_add, BitVec.toNat_ofNat]
  omega

/-- While instructions are left, Fetch finds one. -/
theorem StraightLine.fetch_instr (hm : m.wf = true) (hc : c < m.words.length) :
    ∃ i, s.imem.fetch s.pc = .instr i := by
  obtain ⟨hb, -, -⟩ := (memory_wf_iff m).1 hm
  have hpc := h.pc_toNat hm hc
  rw [h.imem]
  exact exists_fetch_eq_instr hm (by omega) (by omega) (by omega)

/-- When every instruction has been fetched, the pc is the first address after the program, or has wrapped to 0 below
it, since the program does not fill the address space (R26). -/
theorem StraightLine.fetch_outside (hm : m.wf = true) (hfull : m.base ≠ 0 ∨ m.limit < 2 ^ 32)
    (hc : m.words.length ≤ c) : s.imem.fetch s.pc = .outside := by
  obtain ⟨-, hlimit, -⟩ := (memory_wf_iff m).1 hm
  have hfull' : m.base.toNat ≠ 0 ∨ m.base.toNat + 4 * m.words.length < 2 ^ 32 :=
    hfull.imp (fun hb h0 => hb (BitVec.eq_of_toNat_eq h0)) id
  rw [h.imem, fetch_eq_outside_iff hm, h.pc, Nat.min_eq_right hc, BitVec.toNat_add, BitVec.toNat_ofNat]
  omega

/-- Without a request the next cycle's state is as the program's straight line has it. -/
theorem StraightLine.next (hm : m.wf = true) (hfull : m.base ≠ 0 ∨ m.limit < 2 ^ 32) (hctl : ctl s = .proceed) :
    ∃ t, step s = .next t ∧ StraightLine m (c + 1) t := by
  rcases Nat.lt_or_ge c m.words.length with hc | hc
  · obtain ⟨i, hi⟩ := h.fetch_instr hm hc
    have hF : HoldsInCycle m (c + 1) 0 (some (fetchedRecord i s.pc)) := by
      refine ⟨fun k hk hlt => ⟨_, rfl, ?_⟩, fun hno => absurd (hno c rfl) (by omega)⟩
      obtain rfl : c = k := by omega
      exact h.pc_toNat hm hc
    refine ⟨_, step_of_instr h.fault hctl hi, h.imem, rfl, ?_, ?_, h.complete_slots rfl rfl hF⟩
    · rw [Nat.min_eq_left hc, ← nextPc_word, ← Nat.min_eq_left hc.le, ← h.pc]
      rfl
    · rw [Nat.min_eq_left hc, ← Nat.min_eq_left hc.le, ← h.fetchCount]
      rfl
  · have hF : HoldsInCycle m (c + 1) 0 none := ⟨fun k hk hlt => by omega, fun _ => rfl⟩
    have hmin : min (c + 1) m.words.length = min c m.words.length := by omega
    refine ⟨_, step_of_outside h.fault hctl (h.fetch_outside hm hfull hc), h.imem, rfl, ?_, ?_,
      h.complete_slots rfl rfl hF⟩
    · exact h.pc.trans (by rw [hmin])
    · exact h.fetchCount.trans hmin.symm

end

section
variable {m : Memory} (hm : m.wf = true) (hfull : m.base ≠ 0 ∨ m.limit < 2 ^ 32)
  (hu : Undisturbed (m.words.length + 5) (State.atReset m))
include hm hfull hu

/-- The undisturbed run from reset, cycle by cycle (R152, R153). -/
theorem straightLine_run {c : Nat} (hc : c ≤ m.words.length + 5) :
    ∃ s, core.run c (State.atReset m) = .next s ∧ StraightLine m c s := by
  induction c with
  | zero => exact ⟨_, rfl, straightLine_atReset m⟩
  | succ c ih =>
    obtain ⟨s, hrun, h⟩ := ih (by omega)
    obtain ⟨t, hs, ht⟩ := h.next hm hfull (hu c s (by omega) hrun)
    exact ⟨t, core_run_step hrun hs, ht⟩

end

/-- Settles O43: in cycle k + 1 + j the slot of stage j holds instruction k. -/
theorem undisturbedInstructionMovesOneSlotPerCycle : Obligations.UndisturbedInstructionMovesOneSlotPerCycle := by
  intro m hm hfull hu k hk j st hst
  have hj : j < 5 := (List.getElem?_eq_some_iff.1 hst).1
  obtain ⟨t, hrun, h⟩ := straightLine_run hm hfull hu (c := k + 1 + j) (by omega)
  obtain ⟨r, hr, hipc⟩ := (h.slots j st hst).holds k rfl hk
  exact ⟨t, r, hrun, hr, hipc⟩

/-- Up to cycle N + 4 some instruction is in flight: the one just fetched, or the last one (R152). -/
theorem StraightLine.not_empty {m : Memory} {c : Nat} {s : State} (h : StraightLine m (c + 1) s)
    (hn : 1 ≤ m.words.length) (hc : c < m.words.length + 4) : ¬ ∀ st, s.slot st = none := by
  intro hempty
  obtain ⟨j, k, hj, hk, hlt⟩ : ∃ j k, j < Stage.order.length ∧ c + 1 = k + 1 + j ∧ k < m.words.length :=
    ⟨c - min c (m.words.length - 1), min c (m.words.length - 1), by rw [Stage.order_length]; omega, by omega,
      by omega⟩
  obtain ⟨r, hr, -⟩ := (h.slots j _ (List.getElem?_eq_getElem hj)).holds k hk hlt
  simp [hempty] at hr

/-- In cycle N + 5 the last instruction has left W (R152). -/
theorem StraightLine.empty {m : Memory} {s : State} (h : StraightLine m (m.words.length + 5) s) (st : Stage) :
    s.slot st = none := by
  obtain ⟨j, hj, rfl⟩ : ∃ j, ∃ hj : j < Stage.order.length, Stage.order[j] = st :=
    List.mem_iff_getElem.1 (by cases st <;> decide)
  refine (h.slots j _ (List.getElem?_eq_getElem hj)).empty fun k hk => ?_
  rw [Stage.order_length] at hj
  omega

/-- Settles O44: done speaks of the slots, and what M holds in cycle N + 4 is no instruction any more. -/
theorem undisturbedProgramIsDoneAfterNPlusFive : Obligations.UndisturbedProgramIsDoneAfterNPlusFive := by
  intro m hm hfull hn hu
  refine ⟨fun c hc => ?_, ?_⟩
  · rcases c with _ | c
    · exact ⟨_, rfl, rfl⟩
    · obtain ⟨s, hrun, h⟩ := straightLine_run hm hfull hu (c := c) (by omega)
      obtain ⟨t, hs, ht⟩ := h.next hm hfull (hu c s (by omega) hrun)
      refine ⟨t, core_run_step hrun hs, Bool.eq_false_iff.2 fun hd => ?_⟩
      exact ht.not_empty hn (by omega) ((doneMeansAllSlotsEmpty s t hs).1 hd)
  · obtain ⟨t, hrun, h⟩ := straightLine_run hm hfull hu (c := m.words.length + 4) (by omega)
    obtain ⟨u, hs, h'⟩ := h.next hm hfull (hu _ t (by omega) hrun)
    have hM : t.M = none := (h.slots 3 .M rfl).empty fun k hk => by omega
    refine ⟨t, u, hrun, core_run_step hrun hs, (doneMeansAllSlotsEmpty t u hs).2 h'.empty, h'.fault, ?_, ?_, ?_⟩
    · rw [step_regs hs, hM]
      rfl
    · rw [h.pc, h'.pc, Nat.min_eq_right (by omega), Nat.min_eq_right (by omega)]
    · rw [h'.fetchCount, Nat.min_eq_right (by omega)]

end Sys2Proof.Machine
end

section
/-! SUPPORT. The proofs that the pipeline has the effect of the sequential reading (40_pipeline_engine.md R137 to R151):
for one instruction that runs alone, and for whole programs that halt, fault or run forever.

All of them follow the simulation `Sim`. An advance either ends as the sequential reading does (`EndsAs`), or keeps the
relation and commits an instruction or lets the bound `rank` fall, so that a run ends when the reading stops. -/

namespace Sys2Proof.Machine

/-! ## One instruction in an empty pipeline (R137 to R144, R265) -/

/-- A drained state has itself for the sequential state it has reached, where Fetch finds an instruction. -/
theorem State.Drained.sim {s : State} {i : Instr} (h : s.Drained) (hi : s.imem.fetch s.pc = .instr i) :
    Sim s.imem s s := by
  obtain ⟨hF, hD, hX, hM, -⟩ := (slots_empty_iff s).1 h.slots_empty
  exact {
    imem := rfl
    nofault := h.no_fault
    eimem := rfl
    regs := rfl
    mOk := by simp [hM]
    xOk := by simp [hX]
    dOk := by simp [hD]
    fOk := by simp [hF]
    dfOk := by simp [hD]
    dnOk := by simp [hD]
    entryOk := by simp [entry, hF, hD, hX, hM]
    misalignedOk := by simp [hi] }

/-- Over a loaded memory a related state has a next one. -/
theorem Sim.exists_step {m : Memory} {s e : State} (hm : m.wf = true) (h : Sim m s e) : ∃ t, step s = .next t := by
  obtain ⟨f, hf⟩ := frontEnd_of_wf (h.imem.symm ▸ hm)
  exact ⟨_, step_of_frontEnd h.nofault hf⟩

/-- An advance with M empty commits nothing, and it sets no fault where the sequential reading has an instruction. -/
theorem Sim.keep_of_empty {m : Memory} {s e t : State} {i : Instr} (h : Sim m s e) (hM : s.M = none)
    (hi : m.fetch e.pc = .instr i) (hs : step s = .next t) : Sim m t e := by
  rcases sim_step h hs with ⟨-, ht⟩ | ⟨-, hmis, -⟩
  · rwa [hM, after_none] at ht
  · simp [hM, hi] at hmis

/-- Without a request D and F move on as M and X do (R133). -/
theorem step_D_X_of_proceed {s t : State} (hs : step s = .next t) (hc : ctl s = .proceed) :
    t.D = s.F.map (decodeLogic s.regs) ∧ t.X = s.D.map executeLogic := by
  obtain ⟨-, f, hf, rfl⟩ := step_eq_next hs
  rcases frontEnd_cases hf with ⟨a, hc', -⟩ | ⟨hc', -⟩ | ⟨-, i, -, rfl⟩ | ⟨-, -, rfl⟩ | ⟨-, -, rfl⟩
  · simp [hc] at hc'
  · simp [hc] at hc'
  all_goals exact ⟨rfl, rfl⟩

/-- A record in D with nothing ahead of it does not wait (R132). -/
theorem ctl_of_empty_ahead {s : State} (hX : s.X = none) (hM : s.M = none) (hW : s.W = none) : ctl s = .proceed :=
  ctl_eq_proceed.2 ⟨by simp [hX], by cases hD : s.D <;> simp [hazard, hD, hX, hM, hW]⟩

/-- An instruction fetched into an empty pipeline is in F, D and X after one, two and three advances (R265). -/
theorem three_advances {s : State} {i : Instr} (hm : s.imem.wf = true) (h : s.Drained)
    (hi : s.imem.fetch s.pc = .instr i) :
    ∃ t r, core.run 3 s = .next t ∧ Sim s.imem t s ∧ t.X = some r ∧ t.M = none := by
  obtain ⟨hF, hD, hX, hM, hW⟩ := (slots_empty_iff s).1 h.slots_empty
  obtain ⟨t₁, hs₁, hF₁, hD₁, hX₁, hM₁, hW₁, -⟩ :=
    stepFetchesTheDecodedInstruction s i h.no_fault (ctl_of_empty hD hX) hi
  simp only [hF, hD, hX, hM, Option.map_none] at hD₁ hX₁ hM₁ hW₁
  have hsim₁ := (h.sim hi).keep_of_empty hM hi hs₁
  obtain ⟨t₂, hs₂⟩ := hsim₁.exists_step hm
  obtain ⟨hD₂, hX₂⟩ := step_D_X_of_proceed hs₂ (ctl_of_empty hD₁ hX₁)
  obtain ⟨hM₂, hW₂⟩ := step_M_W hs₂
  simp only [hF₁, hD₁, hX₁, hM₁, Option.map_none, Option.map_some] at hD₂ hX₂ hM₂ hW₂
  have hsim₂ := hsim₁.keep_of_empty hM₁ hi hs₂
  obtain ⟨t₃, hs₃⟩ := hsim₂.exists_step hm
  obtain ⟨-, hX₃⟩ := step_D_X_of_proceed hs₃ (ctl_of_empty_ahead hX₂ hM₂ hW₂)
  rw [hD₂, Option.map_some] at hX₃
  exact ⟨t₃, _, core_run_step (core_run_step (core_run_step rfl hs₁) hs₂) hs₃, hsim₂.keep_of_empty hM₂ hi hs₃, hX₃,
    (step_M_W hs₃).1.trans hX₂⟩

/-- Settles O18: in X and in M the simulation relates the record to exec's pc and registers. -/
theorem fiveAdvancesRunTheFetchedInstruction : Obligations.FiveAdvancesRunTheFetchedInstruction := by
  intro s i hm h hi
  obtain ⟨t₃, r, hrun₃, hsim₃, hX₃, hM₃⟩ := three_advances hm h hi
  have hr : Correct s.imem s r := by simpa [hM₃] using hsim₃.xOk r hX₃
  obtain rfl : r.instr = i := by simpa [hi, eq_comm] using hr.1
  obtain ⟨t₄, hs₄⟩ := hsim₃.exists_step hm
  have hsim₄ := hsim₃.keep_of_empty hM₃ hi hs₄
  have hM₄ : t₄.M = some r := (step_M_W hs₄).1.trans hX₃
  obtain ⟨t₅, hs₅⟩ := hsim₄.exists_step hm
  refine ⟨passThrough r.instr s, t₃, r, t₅, r, exec_eq_passThrough .., hrun₃, hX₃, rfl, hr.ipc_eq, fun a ha => ?_,
    fun hno => ?_, core_run_step (core_run_step hrun₃ hs₄) hs₅, (step_M_W hs₅).2.trans hM₄, rfl, hr.ipc_eq, ?_⟩
  · exact ⟨by rw [hr.commit_pc, ha]; rfl, ctl_eq_branch.2 ⟨r, hX₃, ha⟩⟩
  · rw [hr.commit_pc, hno]
    rfl
  · rw [step_regs hs₅, hM₄, ← hsim₄.regs, hr.commit_regs]

/-! ## How the sequential reading goes on (R150) -/

/-- The sequential reading has no next state: it has halted or faults. -/
def Stopped (e : State) : Prop := ∀ t, seqStep e ≠ some (.next t)

theorem seqRun_succ_of_next {e t : State} (n : Nat) (h : seqStep e = some (.next t)) : seqRun (n + 1) e = seqRun n t := by
  simp [seqRun, h]

theorem Stopped.seqRun_succ {e : State} (h : Stopped e) (n : Nat) : seqRun (n + 1) e = none := by
  unfold seqRun
  split
  · next t ht => exact absurd ht (h t)
  · rfl

/-- The sequential reading stays where it has stopped. -/
theorem Stopped.eq_of_seqRun {e x : State} {n : Nat} (h : Stopped e) (hr : seqRun n e = some x) : x = e := by
  cases n with
  | zero => exact (Option.some.inj hr).symm
  | succ n => simp [h.seqRun_succ n] at hr

/-- The record in M is the next instruction of the sequential reading. -/
theorem Sim.seqStep_of_M {m : Memory} {s e : State} {r : InFlight} (h : Sim m s e) (hM : s.M = some r) :
    seqStep e = some (.next (after e s.M)) := by
  obtain ⟨hfetch, -⟩ := h.mOk r hM
  rw [hM, after_some, seqStep_of_instr (h.eimem.symm ▸ hfetch), exec_eq_passThrough]

/-- What the sequential reading still has to run after the record in M: one instruction less, or as much with M
empty. -/
theorem Sim.seqRun_after {m : Memory} {s e x : State} {n : Nat} (h : Sim m s e) (hx : Stopped x)
    (hr : seqRun n e = some x) :
    ∃ n', seqRun n' (after e s.M) = some x ∧ (n' < n ∨ n' = n ∧ s.M = none) := by
  cases hM : s.M with
  | none => exact ⟨n, hr, .inr ⟨rfl, rfl⟩⟩
  | some r =>
    have hstep := h.seqStep_of_M hM
    rw [hM] at hstep
    cases n with
    | zero =>
      cases hr
      exact absurd hstep (hx _)
    | succ n => exact ⟨n, (seqRun_succ_of_next n hstep).symm.trans hr, .inl n.lt_succ_self⟩

/-! ## Where a run ends (R147, R151) -/

/-- The pipeline state `u` ends a run as the sequential reading ends in `e`: with its registers and pc, done where it
halts and faulted where it faults. -/
structure EndsAs (u e : State) : Prop where
  regs : u.regs = e.regs
  pc : u.pc = e.pc
  how : (u.done = true ∧ u.fault = none ∧ seqStep e = none) ∨
    (u.done = false ∧ u.fault = some (.fetchMisaligned e.pc) ∧ seqStep e = some (.fault (.fetchMisaligned e.pc)))

theorem EndsAs.stopped {u e : State} (h : EndsAs u e) : Stopped e := by
  intro t ht
  rcases h.how with ⟨-, -, hstep⟩ | ⟨-, -, hstep⟩ <;> simp [hstep] at ht

theorem EndsAs.ends {u e : State} (h : EndsAs u e) : (u.done || u.fault.isSome) = true := by
  rcases h.how with ⟨hd, -, -⟩ | ⟨-, hf, -⟩
  · simp [hd]
  · simp [hf]

/-- A related state that is done has committed everything, and the sequential reading has halted. -/
theorem Sim.endsAs_of_done {m : Memory} {s t e : State} (h : Sim m t e) (hs : step s = .next t) (hd : t.done = true) :
    EndsAs t e := by
  obtain ⟨hout, hF, hD, hX, hM⟩ := outside_of_done hs hd h.nofault
  have hpc : t.pc = e.pc := by simpa [entry, hF, hD, hX, hM] using h.entryOk (by simp [hX])
  refine ⟨h.regs.symm, hpc, .inl ⟨hd, h.nofault, seqStep_of_outside ?_⟩⟩
  rw [h.eimem, ← h.imem, ← hpc, hout]

/-- An advance ends the run as the sequential reading ends, or keeps the relation and comes nearer to a commit. -/
theorem Sim.advance_cases {m : Memory} {s e : State} (hm : m.wf = true) (h : Sim m s e) :
    ∃ t, step s = .next t ∧ (EndsAs t (after e s.M) ∨
      (t.done = false ∧ Sim m t (after e s.M) ∧ (s.M = none → rank t < rank s))) := by
  obtain ⟨t, hs⟩ := h.exists_step hm
  refine ⟨t, hs, ?_⟩
  rcases sim_step h hs with ⟨hf, ht⟩ | ⟨hf, hmis, hregs, hpc, hd⟩
  · cases hd : t.done
    · exact .inr ⟨rfl, ht, fun hM => rank_lt hs hM hf hd⟩
    · exact .inl (ht.endsAs_of_done hs hd)
  · refine .inl ⟨hregs, hpc, .inr ⟨hd, hf, seqStep_of_misaligned ?_⟩⟩
    rw [after_imem, h.eimem, hmis]

/-- If the sequential reading stops, run-to-completion ends as it does: each advance commits one of the instructions
left, or lets the bound on the advances before the next commit fall. -/
theorem Sim.runToCompletion_of_stopped {m : Memory} {x : State} (hm : m.wf = true) (hx : Stopped x) (n : Nat) (s e : State)
    (h : Sim m s e) (hr : seqRun n e = some x) :
    ∃ fuel u, runToCompletion fuel s = some (.next u) ∧ EndsAs u x := by
  obtain ⟨t, hs, ht⟩ := h.advance_cases hm
  obtain ⟨n', hr', hn⟩ := h.seqRun_after hx hr
  rcases ht with hend | ⟨hd, ht, hrank⟩
  · obtain rfl := hend.stopped.eq_of_seqRun hr'
    exact ⟨1, t, by simp [runToCompletion, show advance s = .next t from hs, hend.ends], hend⟩
  · have hdecreases : n' < n ∨ n' = n ∧ rank t < rank s := hn.imp_right fun ⟨hn, hM⟩ => ⟨hn, hrank hM⟩
    obtain ⟨fuel, u, hu, hend⟩ := Sim.runToCompletion_of_stopped hm hx n' t (after e s.M) ht hr'
    refine ⟨fuel + 1, u, ?_, hend⟩
    simp [runToCompletion, show advance s = .next t from hs, hd, ht.nofault, hu]
termination_by (n, rank s)
decreasing_by exact Prod.lex_def.2 hdecreases

/-- The run from reset ends as the sequential reading from reset ends (R151). -/
theorem runToCompletion_atReset {m : Memory} {n : Nat} {e : State} (hm : m.wf = true)
    (hr : seqRun n (State.atReset m) = some e) (he : Stopped e) :
    ∃ fuel u, runToCompletion fuel (State.atReset m) = some (.next u) ∧ EndsAs u e := by
  obtain ⟨hb, -, -⟩ := (memory_wf_iff m).1 hm
  exact (sim_atReset hb).runToCompletion_of_stopped hm he n _ _ hr

/-- Settles O19. -/
theorem haltingProgramsAgree : Obligations.HaltingProgramsAgree := by
  intro m n e hm hr hhalt
  obtain ⟨fuel, u, hu, hregs, hpc, ⟨hd, hf, -⟩ | ⟨-, -, hfault⟩⟩ :=
    runToCompletion_atReset hm hr fun t ht => by simp [hhalt] at ht
  · exact ⟨fuel, u, hu, hd, hf, hregs, hpc⟩
  · simp [hhalt] at hfault

/-- Settles O20: the fault's address is the pc the reading has reached. -/
theorem faultingProgramsAgree : Obligations.FaultingProgramsAgree := by
  intro m n e a hm hr hfault
  obtain ⟨fuel, u, hu, hregs, hpc, ⟨-, -, hhalt⟩ | ⟨hd, hf, hfault'⟩⟩ :=
    runToCompletion_atReset hm hr fun t ht => by simp [hfault] at ht
  · simp [hfault] at hhalt
  · obtain rfl : e.pc = a := by simpa [hfault, eq_comm] using hfault'
    exact ⟨fuel, u, hu, hd, hf, hregs, hpc⟩

/-- The sequential reading runs on forever. -/
def Endless (e : State) : Prop := ∀ n, (seqRun n e).isSome = true

/-- The sequential reading still runs on after the record in M. -/
theorem Sim.endless_after {m : Memory} {s e : State} (h : Sim m s e) (he : Endless e) : Endless (after e s.M) := by
  intro n
  cases hM : s.M with
  | none => exact he n
  | some r =>
    have hstep := h.seqStep_of_M hM
    rw [hM] at hstep
    rw [← seqRun_succ_of_next n hstep]
    exact he (n + 1)

theorem Endless.not_stopped {e : State} (he : Endless e) : ¬ Stopped e := fun hstop => by
  simpa [hstop.seqRun_succ 0] using he 1

/-- While the sequential reading runs on, no advance ends the run. -/
theorem Sim.run_of_endless {m : Memory} {s e : State} (hm : m.wf = true) (h : Sim m s e) (he : Endless e)
    (hd : s.done = false) (k : Nat) : ∃ u, core.run k s = .next u ∧ u.done = false ∧ u.fault = none := by
  induction k generalizing s e with
  | zero => exact ⟨s, rfl, hd, h.nofault⟩
  | succ k ih =>
    have he' := h.endless_after he
    obtain ⟨t, hs, hend | ⟨hd', ht, -⟩⟩ := h.advance_cases hm
    · exact absurd hend.stopped he'.not_stopped
    · rw [core_run_succ k hs]
      exact ih ht he' hd'

/-- Settles O21. -/
theorem endlessProgramsAgree : Obligations.EndlessProgramsAgree := by
  intro m hm he k
  obtain ⟨hb, -, -⟩ := (memory_wf_iff m).1 hm
  exact (sim_atReset hb).run_of_endless hm he rfl k

end Sys2Proof.Machine
end

section
/-! SUPPORT. The tie between the two readings of an instruction's meaning: its sequential effect (41_rtype_alu.md R180,
42_itype_alu.md R190, 43_control_transfer.md R201 to R203, 44_load_store.md R210, R211) is its by-stage pseudocode. -/

namespace Sys2Proof.Machine

/-- Settles O16: `exec_eq_passThrough`, the case split over the instructions on which the simulation rests too. -/
theorem sequentialEffectIsTheStagesInTurn : Obligations.SequentialEffectIsTheStagesInTurn :=
  exec_eq_passThrough

end Sys2Proof.Machine
end

section
/-! SUPPORT. The proof about which record transfers control and where to (43_control_transfer.md R200 to R203): the
condition of a branch is decided by its two operands, which Decode has set. -/

namespace Sys2Proof.Machine

theorem equalCondition_iff (a b : Word) : equalCondition a b = true ↔ a = b := beq_iff_eq

/-- A branch whose operands are set has its condition decided on their values. -/
theorem operandsSatisfy_of_some {r : InFlight} {a b : Word} (p : Word → Word → Bool) (ha : r.op1 = some a)
    (hb : r.op2 = some b) : operandsSatisfy p r = p a b := by
  simp [operandsSatisfy, ha, hb]

/-- Every record but a jr's has two operand values once its operands are set (R139, R200). -/
theorem OperandsSet.exists_values {r : InFlight} (h : OperandsSet r) (hne : r.instr.mnemonic ≠ .jr) :
    ∃ a b, r.op1 = some a ∧ r.op2 = some b := by
  obtain ⟨h1, h2⟩ := h
  obtain ⟨a, ha⟩ := Option.isSome_iff_exists.1 h1
  obtain ⟨b, hb⟩ := Option.isSome_iff_exists.1 (h2 hne)
  exact ⟨a, b, ha, hb⟩

section
variable {r : InFlight} {rs1 rs2 : Reg} {off : Int} (h : OperandsSet r)
include h

/-- beq is taken when its operands are equal (R200, R201). -/
theorem taken_beq_iff (hi : r.instr = .beq rs1 rs2 off) : taken r = true ↔ r.op1 = r.op2 := by
  obtain ⟨a, b, ha, hb⟩ := h.exists_values (by simp [hi, Instr.mnemonic])
  have ht : taken r = equalCondition a b := by simp [taken, hi, operandsSatisfy_of_some _ ha hb]
  rw [ht, equalCondition_iff, ha, hb, Option.some_inj]

/-- bne is taken when its operands differ (R200, R202). -/
theorem taken_bne_iff (hi : r.instr = .bne rs1 rs2 off) : taken r = true ↔ r.op1 ≠ r.op2 := by
  obtain ⟨a, b, ha, hb⟩ := h.exists_values (by simp [hi, Instr.mnemonic])
  have ht : taken r = !equalCondition a b := by simp [taken, hi, operandsSatisfy_of_some _ ha hb]
  rw [ht, Bool.not_eq_true', ← Bool.not_eq_true, equalCondition_iff, ha, hb, Ne, Option.some_inj]

end

/-- Settles O28, by the record's instruction: only a branch's condition needs the operands. -/
theorem transfersByConstructor : Obligations.TransfersByConstructor := by
  intro r h
  cases hi : r.instr
  case beq => exact ⟨taken_beq_iff h hi, by simp [target, hi, branchTarget]⟩
  case bne => exact ⟨taken_bne_iff h hi, by simp [target, hi, branchTarget]⟩
  case jr => simp [taken, target, hi]
  all_goals simp [taken, hi]

end Sys2Proof.Machine
end

section
/-! SUPPORT. The proofs about reset and load (70_reset_and_hazards.md R250, R252): load checks the words in order and
leaves the reset state over the program it has placed. -/

namespace Sys2Proof.Machine

/-- Settles O1: the fields are R50's by definition, and the first advance counts on from 0. -/
theorem resetPutsEveryPieceAtItsValue : Obligations.ResetPutsEveryPieceAtItsValue := by
  intro s
  have hregs (r : Reg) : (hostReset s).regs[r] = 0 := by simp [hostReset, State.atReset]
  have hread (r : Reg) : (hostReset s).reg r = 0 := by
    by_cases h : r = 0
    · simp [State.reg, h]
    · exact (read_of_ne_zero _ h).trans (hregs r)
  exact ⟨fun r => ⟨hregs r, hread r⟩, rfl, atReset_slot s.imem, rfl, rfl, rfl, rfl, rfl,
    fun t h => (countersCountAdvancesAndFetches _ t h).1⟩

/-- A program that fits and passes the check is placed, and the machine reset (R252). -/
theorem load_of_legal {ws : List Word} {s : State} (hfit : s.imem.base.toNat + 4 * ws.length ≤ 2 ^ 32)
    (hcheck : firstIllegal 0 ws = none) : load ws s = .ok (State.atReset ⟨s.imem.base, ws⟩) :=
  (if_neg (Nat.not_lt.2 hfit)).trans (by rw [hcheck]; rfl)

/-- What the check finds in a program that fits is reported (R252). -/
theorem load_of_illegal {ws : List Word} {s : State} {k : Nat} {w : Word}
    (hfit : s.imem.base.toNat + 4 * ws.length ≤ 2 ^ 32) (hcheck : firstIllegal 0 ws = some (k, w)) :
    load ws s = .error (.decodingError k w) :=
  (if_neg (Nat.not_lt.2 hfit)).trans (by rw [hcheck])

/-- A successful load answers the reset state over the program at PROGRAM_BASE. -/
theorem load_eq_ok {ws : List Word} {s t : State} (h : load ws s = .ok t) : t = State.atReset ⟨s.imem.base, ws⟩ := by
  unfold load at h
  split at h
  · cases h
  · split at h
    · cases h
    · exact (Except.ok.inj h).symm

/-- Settles O3: it is a reset state, and its memory has passed load's checks. -/
theorem loadedStatesMeetTheInvariant : Obligations.LoadedStatesMeetTheInvariant := by
  intro ws s t hb h
  have hwf := load_keeps_wf hb h
  rw [load_eq_ok h] at hwf ⊢
  exact inv_atReset hwf

/-- The check passes over words that decode and reports the first that does not, with its index. -/
theorem firstIllegal_append {w : Word} (hw : ∀ i, decode w ≠ .ok i) (post : List Word) {pre : List Word}
    (hpre : ∀ v ∈ pre, ∃ i, decode v = .ok i) (k : Nat) :
    firstIllegal k (pre ++ w :: post) = some (k + pre.length, w) := by
  induction pre generalizing k with
  | nil =>
    cases hd : decode w with
    | ok i => exact absurd hd (hw i)
    | error => simp [firstIllegal, hd]
  | cons v pre ih =>
    obtain ⟨⟨i, hi⟩, hpre⟩ := List.forall_mem_cons.1 hpre
    simp [firstIllegal, hi, ih hpre, Nat.add_right_comm _ 1, Nat.add_assoc]

/-- Settles O5, by what the check finds. -/
theorem loadChecksEveryWordThenResets : Obligations.LoadChecksEveryWordThenResets := by
  intro ws s hfit
  refine ⟨fun hall => ?_, fun pre w post hws hpre hw => ?_⟩
  · have hcheck : firstIllegal 0 ws = none :=
      (firstIllegal_eq_none ws 0).2 fun w hw => (decode_isOk_iff w).1 (hall w hw)
    exact ⟨_, load_of_legal hfit hcheck, rfl, rfl, memory_read_eq_some ⟨s.imem.base, ws⟩⟩
  · subst hws
    simpa using load_of_illegal hfit (firstIllegal_append hw post hpre 0)

end Sys2Proof.Machine
end

section
/-! SUPPORT. The proof about the cycles to done (70_reset_and_hazards.md R266), on the simulation `Sim`. A state that
still has instructions to issue owes the next of them a number of cycles until it is in W (`lead`): 3 from D, 4 from F,
5 from the pc, and 6 behind a taken transfer in X, whose redirect comes first. Each advance pays one cycle of this debt,
unless it stalls; the advance that moves an instruction from D to X opens the debt of the next instruction, which is one
cycle longer than what is left of its own, or four behind a taken transfer. -/

namespace Sys2Proof.Machine

/-! ## The sequential reading at the record that leaves D -/

/-- The sequential state after the instructions in M and X: the one that the next instruction to reach X runs in. -/
def issued (s e : State) : State := after (after e s.M) s.X

/-- A step moves the sequential state on by the record that it brings to X. -/
theorem issued_step {s t : State} (hs : step s = .next t) (e : State) :
    issued t (after e s.M) = after (issued s e) t.X := by
  rw [issued, issued, (step_M_W hs).1]

theorem Sim.issued_imem {m : Memory} {s e : State} (h : Sim m s e) : (issued s e).imem = m := by
  rw [issued, after_imem, after_imem, h.eimem]

/-- The sequential reading goes on from a state only by an instruction that Fetch finds there (R150). -/
theorem exists_fetch_of_seqStep {e t : State} (h : seqStep e = some (.next t)) :
    ∃ i, e.imem.fetch e.pc = .instr i := by
  unfold seqStep at h
  split at h
  · cases h
  · cases h
  · cases h
  · next i hi => exact ⟨i, hi⟩

/-- The sequential reading halts only where Fetch finds nothing (R150). -/
theorem fetch_of_seqStep_eq_none {e : State} (h : seqStep e = none) : e.imem.fetch e.pc = .outside := by
  unfold seqStep at h
  split at h
  · assumption
  · cases h
  · cases h
  · cases h

theorem not_stopped_of_seqStep {e t : State} (h : seqStep e = some (.next t)) : ¬ Stopped e := fun hstop => hstop t h

/-- The inversion of a reading: its first instruction runs, and it goes on from there. -/
theorem exists_seqStep_of_seqRun_succ {e p : State} {k : Nat} (hr : seqRun (k + 1) e = some p) :
    ∃ t, seqStep e = some (.next t) ∧ seqRun k t = some p := by
  unfold seqRun at hr
  split at hr
  · next t ht => exact ⟨t, ht, hr⟩
  · cases hr

/-- A reading that reaches a state from which it goes on goes on from the start. -/
theorem exists_seqStep_of_seqRun {e p x : State} {k : Nat} (hr : seqRun k e = some p)
    (hp : seqStep p = some (.next x)) : ∃ t, seqStep e = some (.next t) := by
  cases k with
  | zero =>
    cases hr
    exact ⟨x, hp⟩
  | succ k =>
    obtain ⟨t, ht, -⟩ := exists_seqStep_of_seqRun_succ hr
    exact ⟨t, ht⟩

/-- A reading goes on by an instruction from the state it reaches. -/
theorem seqRun_seqStep {e p x : State} {k : Nat} (hr : seqRun k e = some p) (hp : seqStep p = some (.next x)) :
    seqRun (k + 1) e = some x := by
  induction k generalizing e with
  | zero =>
    cases hr
    exact seqRun_succ_of_next 0 hp
  | succ k ih =>
    obtain ⟨t, ht, hr⟩ := exists_seqStep_of_seqRun_succ hr
    exact (seqRun_succ_of_next (k + 1) ht).trans (ih hr)

/-- Where the operands are set, a taken transfer has its target (R200). -/
theorem OperandsSet.transfer_isSome {r : InFlight} (h : OperandsSet r) : (transfer r).isSome = taken r := by
  unfold transfer
  split
  · next ht =>
    rw [ht]
    cases hi : r.instr
    case beq | bne => simp [target, hi]
    case jr => simpa [target, hi] using h.1
    all_goals simp [taken, hi] at ht
  · next ht => simp [ht]

section
variable {m : Memory} {e : State} {r : InFlight} (h : Correct m e r) (he : e.imem = m)
include h he

/-- The instruction of a correct record is the next of the sequential reading. -/
theorem Correct.seqStep : seqStep e = some (.next (after e (some r))) := by
  rw [seqStep_of_instr (he.symm ▸ h.1), exec_eq_passThrough, after_some]

/-- A correct record transfers control exactly where the sequential reading does (R131, R200). -/
theorem Correct.transfer_isSome : (transfer r).isSome = transfersNext e := by
  obtain ⟨hfetch, hr⟩ := h
  have hset : OperandsSet r := by
    rw [hr, operandsSet_executeLogic]
    exact operandsSet_decodeLogic ..
  have htaken : taken r = taken (decodeLogic e.regs (fetchedRecord r.instr e.pc)) := by
    conv_lhs => rw [hr]
    simp [taken, operandsSatisfy]
  rw [hset.transfer_isSome, htaken, transfersNext, he, hfetch]

end

section
variable {m : Memory} {s e : State} (h : Sim m s e)
include h

/-- The next instruction to reach X is the one that the sequential reading runs next (R132, R136). -/
theorem Sim.entry_eq (hX : s.X.bind transfer = none) : entry s = (issued s e).pc := h.entryOk hX

/-- An instruction in M or X is one that the sequential reading still runs. -/
theorem Sim.not_stopped_of_issued (hgo : ¬ Stopped (issued s e)) : ¬ Stopped (after e s.M) := by
  cases hX : s.X with
  | none => rwa [issued, hX, after_none] at hgo
  | some r => exact not_stopped_of_seqStep ((h.xOk r hX).seqStep (by rw [after_imem, h.eimem]))

/-- While the sequential reading goes on, an advance keeps the relation and done stays false. -/
theorem Sim.exists_step_of_not_stopped (hm : m.wf = true) (hgo : ¬ Stopped (after e s.M)) :
    ∃ t, step s = .next t ∧ t.done = false ∧ Sim m t (after e s.M) := by
  obtain ⟨t, hs, hend | ⟨hd, ht, -⟩⟩ := h.advance_cases hm
  · exact absurd hend.stopped hgo
  · exact ⟨t, hs, hd, ht⟩

end

/-! ## The last instruction (R266) -/

/-- After `c` advances from `s` the instruction at the pc of `p` is in W with the registers of `e` committed, done is
false until then, and true one advance later. -/
def CommitsLastAfter (c : Nat) (s p e : State) : Prop :=
  ∃ t u w, core.run c s = .next t ∧ t.W = some w ∧ w.ipc = p.pc ∧ t.regs = e.regs ∧
    (∀ k ≤ c, ∃ v, core.run k s = .next v ∧ v.done = false) ∧ step t = .next u ∧ u.done = true

theorem CommitsLastAfter.succ {c : Nat} {s t p e : State} (hd : s.done = false) (hs : step s = .next t)
    (h : CommitsLastAfter c t p e) : CommitsLastAfter (c + 1) s p e := by
  obtain ⟨v, u, w, hrun, hW, hipc, hregs, hdone, hu, hud⟩ := h
  refine ⟨v, u, w, (core_run_succ c hs).trans hrun, hW, hipc, hregs, fun k hk => ?_, hu, hud⟩
  cases k with
  | zero => exact ⟨s, rfl, hd⟩
  | succ k =>
    rw [core_run_succ k hs]
    exact hdone k (Nat.le_of_succ_le_succ hk)

theorem stallCycles_succ {s t : State} (hs : step s = .next t) (n : Nat) :
    stallCycles (n + 1) s = (if ctl s = .stall then 1 else 0) + stallCycles n t := by
  simp [stallCycles, hs]

theorem takenTransfers_succ {s t : State} (hs : seqStep s = some (.next t)) (n : Nat) :
    takenTransfers (n + 1) s = (if transfersNext s then 1 else 0) + takenTransfers n t := by
  simp [takenTransfers, hs]

/-- Nothing is left to issue: F, D and X are empty and Fetch finds nothing at the pc. -/
structure FrontIdle (s : State) : Prop where
  F : s.F = none
  D : s.D = none
  X : s.X = none
  outside : s.imem.fetch s.pc = .outside

/-- An idle front end stays idle: the advance only moves M to W. -/
theorem FrontIdle.exists_step {s : State} (h : FrontIdle s) (hf : s.fault = none) :
    ctl s = .proceed ∧ ∃ t, step s = .next t ∧ FrontIdle t ∧ t.fault = none ∧ t.M = none ∧ t.W = s.M ∧
      (t.done = true ↔ s.M = none) := by
  have hc := ctl_of_empty h.D h.X
  refine ⟨hc, _, step_of_outside hf hc h.outside, ⟨rfl, ?_, ?_, h.outside⟩, rfl, ?_, rfl, ?_⟩
  · simp [frontDrain, h.F]
  · simp [frontDrain, h.D]
  · simp [h.X]
  · simp [complete_done, allEmpty_iff, frontDrain, h.F, h.D, h.X]

/-- Where the sequential reading halts behind X, the next advance leaves the front end idle, by a redirect or a drain:
a record in D or F would be an instruction the reading still runs. -/
theorem Sim.frontIdle_of_halt {m : Memory} {s e t : State} (h : Sim m s e) (hhalt : seqStep (issued s e) = none)
    (hs : step s = .next t) : ctl s ≠ .stall ∧ FrontIdle t := by
  have hout : m.fetch (issued s e).pc = .outside := by
    rw [← h.issued_imem]
    exact fetch_of_seqStep_eq_none hhalt
  cases hX : s.X.bind transfer with
  | some a =>
    have hc : ctl s = .branch a := ctl_eq_branch.2 (Option.bind_eq_some_iff.1 hX)
    obtain ⟨r, hr, ha⟩ := ctl_eq_branch.1 hc
    have hpc : (issued s e).pc = a := by
      rw [issued, hr, after_some, (h.xOk r hr).commit_pc, ha]
      rfl
    cases (step_of_branch h.nofault hc).symm.trans hs
    exact ⟨by simp [hc], rfl, rfl, rfl, by rwa [complete_imem, h.imem, ← hpc]⟩
  | none =>
    have hentry := h.entry_eq hX
    have hD : s.D = none := Option.eq_none_iff_forall_ne_some.2 fun d hD => by
      have hfetch := (h.dOk d hD).1
      simp [← hentry, entry, hD, hfetch] at hout
    have hF : s.F = none := Option.eq_none_iff_forall_ne_some.2 fun f hF => by
      have hfetch := (h.fOk f hF).2.1
      simp [← hentry, entry, hD, hF, hfetch] at hout
    have hc : ctl s = .proceed := ctl_eq_proceed.2 ⟨hX, by simp [hazard, hD]⟩
    have hpc : s.imem.fetch s.pc = .outside := by
      rw [h.imem, ← hout, ← hentry]
      simp [entry, hD, hF]
    cases (step_of_outside h.nofault hc hpc).symm.trans hs
    exact ⟨by simp [hc], rfl, by simp [frontDrain, hF], by simp [frontDrain, hD], hpc⟩

/-- The last instruction, in X, is in W two advances later, without a stall, and the next one is done. -/
theorem Sim.commitsLast_of_X {m : Memory} {s e : State} {w : InFlight} (hm : m.wf = true) (h : Sim m s e)
    (hd : s.done = false) (hX : s.X = some w) (hhalt : seqStep (issued s e) = none) :
    CommitsLastAfter 2 s (after e s.M) (issued s e) ∧ stallCycles 2 s = 0 := by
  have hw := h.xOk w hX
  have hgo : ¬ Stopped (after e s.M) := not_stopped_of_seqStep (hw.seqStep (by rw [after_imem, h.eimem]))
  obtain ⟨t, hs, hdt, ht⟩ := h.exists_step_of_not_stopped hm hgo
  obtain ⟨hc, hidle⟩ := h.frontIdle_of_halt hhalt hs
  have hM : t.M = some w := (step_M_W hs).1.trans hX
  obtain ⟨hc', t', hs', hidle', hf', hM', hW', hdone'⟩ := hidle.exists_step ht.nofault
  obtain ⟨-, u, hu, -, -, -, -, hdu⟩ := hidle'.exists_step hf'
  have hd' : t'.done = false := by simpa [hM] using hdone'
  refine ⟨.succ hd hs (.succ hdt hs' ⟨t', u, w, rfl, hW'.trans hM, hw.ipc_eq, ?_, fun k hk => ?_, hu, hdu.2 hM'⟩), ?_⟩
  · rw [step_regs hs', hM, ← ht.regs, hw.commit_regs, issued, hX, after_some]
  · obtain rfl := Nat.le_zero.1 hk
    exact ⟨t', rfl, hd'⟩
  · rw [stallCycles_succ hs, stallCycles_succ hs', if_neg hc, hc']
    rfl

/-! ## The debt of the next instruction (R152, R155) -/

/-- How many advances without a stall bring the next instruction to be issued into W. -/
def lead (s : State) : Nat :=
  if (s.X.bind transfer).isSome then 6 else if s.D.isSome then 3 else if s.F.isSome then 4 else 5

/-- F stays empty behind a record in D only where there is nothing to fetch. -/
def FollowsD (s : State) : Prop := s.D.isSome = true → s.F = none → s.imem.fetch s.pc = .outside

theorem FollowsD.step {s t : State} (h : FollowsD s) (hs : step s = .next t) (hf : t.fault = none) : FollowsD t := by
  obtain ⟨-, f, hfe, rfl⟩ := step_eq_next hs
  intro hD hF
  rcases frontEnd_cases hfe with ⟨a, -, rfl⟩ | ⟨-, rfl⟩ | ⟨-, i, -, rfl⟩ | ⟨-, hout, rfl⟩ | ⟨-, -, rfl⟩
  · simp [frontRedirect] at hD
  · exact h (by simpa [frontStall] using hD) hF
  · cases hF
  · exact hout
  · cases hf

/-- An advance that brings nothing to X pays one cycle of the debt, unless it is a stall. -/
theorem Sim.lead_of_waiting {m : Memory} {s e t x : State} (h : Sim m s e) (hgo : seqStep (issued s e) = some (.next x))
    (hs : step s = .next t) (hf : t.fault = none) (hX : t.X = none) :
    lead t + 1 = lead s + (if ctl s = .stall then 1 else 0) := by
  obtain ⟨-, f, hfe, rfl⟩ := step_eq_next hs
  rcases frontEnd_cases hfe with ⟨a, hc, rfl⟩ | ⟨hc, rfl⟩ | ⟨hc, i, -, rfl⟩ | ⟨hc, hout, rfl⟩ | ⟨-, -, rfl⟩
  · obtain ⟨r, hXs, hr⟩ := ctl_eq_branch.1 hc
    simp [lead, hXs, hr, hc, frontRedirect]
  · obtain ⟨hXs, hz⟩ := ctl_eq_stall.1 hc
    obtain ⟨c, hD, -⟩ := (hazard_iff s).1 hz
    simp [lead, hXs, hD, hc, frontStall]
  · have hD : s.D = none := by simpa [frontFetch] using hX
    have hXs := (ctl_eq_proceed.1 hc).1
    cases hF : s.F <;> simp [lead, hXs, hD, hF, hc, frontFetch]
  · have hD : s.D = none := by simpa [frontDrain] using hX
    have hXs := (ctl_eq_proceed.1 hc).1
    cases hF : s.F with
    | some q => simp [lead, hXs, hD, hF, hc, frontDrain]
    | none =>
      obtain ⟨i, hi⟩ := exists_fetch_of_seqStep hgo
      rw [h.issued_imem, ← h.entry_eq hXs, ← h.imem] at hi
      simp [entry, hD, hF, hout] at hi
  · cases hf

/-- A record reaches X from D, in an advance without a request. -/
theorem ctl_of_step_X {s t : State} {r : InFlight} (hs : step s = .next t) (hX : t.X = some r) :
    ctl s = .proceed ∧ s.D.isSome = true := by
  obtain ⟨d, hD, -⟩ := step_X hs hX
  refine ⟨?_, by simp [hD]⟩
  obtain ⟨-, f, hfe, rfl⟩ := step_eq_next hs
  rcases frontEnd_cases hfe with ⟨a, -, rfl⟩ | ⟨-, rfl⟩ | ⟨hc, -⟩ | ⟨hc, -⟩ | ⟨hc, -⟩
  · cases hX
  · cases hX
  all_goals exact hc

theorem lead_of_step_X {s t : State} {r : InFlight} (hs : step s = .next t) (hX : t.X = some r) : lead s = 3 := by
  obtain ⟨hc, hD⟩ := ctl_of_step_X hs hX
  simp [lead, (ctl_eq_proceed.1 hc).1, hD]

/-- An advance that brings a record to X opens the debt of the next instruction: from D, where it has followed, or, when
the record transfers control, from the pc after the redirect. -/
theorem Sim.lead_of_issue {m : Memory} {s e t x : State} {r : InFlight} (h : Sim m s e) (ht : Sim m t (after e s.M))
    (hfollow : FollowsD s) (hgo : seqStep (issued t (after e s.M)) = some (.next x)) (hs : step s = .next t)
    (hX : t.X = some r) : lead t = 3 + 3 * (if transfersNext (issued s e) then 1 else 0) := by
  obtain ⟨hc, hD⟩ := ctl_of_step_X hs hX
  have htransfer : (transfer r).isSome = transfersNext (issued s e) := by
    have hr := ht.xOk r hX
    rw [(step_M_W hs).1] at hr
    exact hr.transfer_isSome h.issued_imem
  cases hnext : transfersNext (issued s e) with
  | true => simp [lead, hX, htransfer, hnext]
  | false =>
    have hXt : t.X.bind transfer = none := by simpa [hX, hnext] using htransfer
    have hDt := (step_D_X_of_proceed hs hc).1
    cases hF : s.F with
    | some f => simp [lead, hXt, hDt, hF]
    | none =>
      have hout := hfollow hD hF
      cases (step_of_outside h.nofault hc hout).symm.trans hs
      obtain ⟨i, hi⟩ := exists_fetch_of_seqStep hgo
      rw [ht.issued_imem, ← ht.entry_eq hXt, ← h.imem] at hi
      simp [entry, frontDrain, hF, hout] at hi

/-- R266 from a state with `k` instructions to issue before the last: the last is in W when the debt of the next one is
paid, one cycle for each of the others, one for each stall and three for each taken transfer before the last. -/
def CommitsOnTime (k : Nat) (s e p x : State) : Prop :=
  ∃ c, c = lead s + k + stallCycles c s + 3 * takenTransfers k (issued s e) ∧ CommitsLastAfter c s p x

section
variable {m : Memory} {s e t p x : State} {r : InFlight} {k : Nat} (h : Sim m s e) (ht : Sim m t (after e s.M))
  (hd : s.done = false) (hs : step s = .next t)
include h ht hs

/-- The record that an advance brings to X is the next instruction of the sequential reading. -/
theorem Sim.seqStep_issued (hX : t.X = some r) :
    seqStep (issued s e) = some (.next (issued t (after e s.M))) := by
  have hr := ht.xOk r hX
  rw [(step_M_W hs).1] at hr
  rw [issued_step hs, hX]
  exact hr.seqStep h.issued_imem

include hd

theorem Sim.commitsOnTime_of_waiting (hX : t.X = none) (hgo : seqStep (issued s e) = some (.next x))
    {y : State} (hnext : CommitsOnTime k t (after e s.M) p y) : CommitsOnTime k s e p y := by
  obtain ⟨c, hc, hlast⟩ := hnext
  have hlead := h.lead_of_waiting hgo hs ht.nofault hX
  rw [issued_step hs, hX, after_none] at hc
  refine ⟨c + 1, ?_, hlast.succ hd hs⟩
  rw [stallCycles_succ hs]
  omega

omit h in
/-- The advance that brings the last instruction to X leaves it two advances from W. -/
theorem Sim.commitsOnTime_of_last (hm : m.wf = true) (hX : t.X = some r) (hdt : t.done = false)
    (hhalt : seqStep (issued t (after e s.M)) = none) :
    CommitsOnTime 0 s e (issued s e) (issued t (after e s.M)) := by
  obtain ⟨hlast, hzero⟩ := ht.commitsLast_of_X hm hdt hX hhalt
  rw [(step_M_W hs).1] at hlast
  refine ⟨3, ?_, hlast.succ hd hs⟩
  rw [stallCycles_succ hs, (ctl_of_step_X hs hX).1, hzero, lead_of_step_X hs hX]
  rfl

theorem Sim.commitsOnTime_of_issue (hX : t.X = some r) (hfollow : FollowsD s)
    (hgo : seqStep (issued t (after e s.M)) = some (.next x)) {y : State}
    (hnext : CommitsOnTime k t (after e s.M) p y) : CommitsOnTime (k + 1) s e p y := by
  obtain ⟨c, hc, hlast⟩ := hnext
  have hstall : ctl s ≠ .stall := by simp [(ctl_of_step_X hs hX).1]
  have hlead := lead_of_step_X hs hX
  have hlead' := h.lead_of_issue ht hfollow hgo hs hX
  refine ⟨c + 1, ?_, hlast.succ hd hs⟩
  rw [stallCycles_succ hs, if_neg hstall, takenTransfers_succ (h.seqStep_issued ht hs hX)]
  omega

end

/-- The count holds in every related state whose run ends, by induction on the advances the run takes: each brings the
next instruction to X, the last one or another, or brings nothing. -/
theorem Sim.commitsOnTime {m : Memory} {p x u : State} (hm : m.wf = true) (hp : seqStep p = some (.next x))
    (hx : seqStep x = none) (fuel : Nat) {s e : State} {k : Nat} (h : Sim m s e) (hfollow : FollowsD s)
    (hd : s.done = false) (hr : seqRun k (issued s e) = some p) (hend : runToCompletion fuel s = some (.next u)) :
    CommitsOnTime k s e p x := by
  induction fuel generalizing s e k with
  | zero => cases hend
  | succ fuel ih =>
    obtain ⟨y, hy⟩ := exists_seqStep_of_seqRun hr hp
    obtain ⟨t, hs, hdt, ht⟩ := h.exists_step_of_not_stopped hm (h.not_stopped_of_issued (not_stopped_of_seqStep hy))
    have hend' : runToCompletion fuel t = some (.next u) := by
      simpa [runToCompletion, show advance s = .next t from hs, hdt, ht.nofault] using hend
    have ih' {k : Nat} (hr : seqRun k (issued t (after e s.M)) = some p) : CommitsOnTime k t (after e s.M) p x :=
      ih ht (hfollow.step hs ht.nofault) hdt hr hend'
    cases hX : t.X with
    | none =>
      have hissued : issued t (after e s.M) = issued s e := by rw [issued_step hs, hX, after_none]
      exact h.commitsOnTime_of_waiting ht hd hs hX hy (ih' (hissued.symm ▸ hr))
    | some r =>
      have hstep := h.seqStep_issued ht hs hX
      cases k with
      | zero =>
        cases hr
        cases hstep.symm.trans hp
        exact ht.commitsOnTime_of_last hd hs hm hX hdt hx
      | succ k =>
        rw [seqRun_succ_of_next k hstep] at hr
        obtain ⟨z, hz⟩ := exists_seqStep_of_seqRun hr hp
        exact h.commitsOnTime_of_issue ht hd hs hX hfollow hz (ih' hr)

/-- Settles O45: from reset the first instruction is five advances from W, and that the run ends is O19; with no program
the first advance drains empty slots. -/
theorem cyclesToDone : Obligations.CyclesToDone := by
  refine ⟨fun m n p e hm hr hp he => ?_, fun base => ⟨_, step_of_outside rfl rfl (fetch_of_outside (by simp)), rfl⟩⟩
  obtain ⟨hb, -, -⟩ := (memory_wf_iff m).1 hm
  obtain ⟨fuel, u, hend, -⟩ := haltingProgramsAgree m (n + 1) e hm (seqRun_seqStep hr hp) he
  have hfollow : FollowsD (State.atReset m) := fun h => by cases h
  obtain ⟨c, hc, t, u, w, hlast⟩ := (sim_atReset hb).commitsOnTime hm hp he fuel hfollow rfl hr hend
  have hc : c = 5 + n + stallCycles c (State.atReset m) + 3 * takenTransfers n (State.atReset m) := hc
  exact ⟨c, t, u, w, by omega, hlast⟩

end Sys2Proof.Machine
end
